-- ==== Sys2Proof/Word.lean ====
section
/-! DEFINITION. The word types of the block and the sixteen-entry tables its two register files are made of
(10_state.md R25, R31; 20_memory.md R50, R55; 30_encoding.md R80). -/

namespace Sys2Proof

/-- A byte: the unit every transaction moves (R50) and the width of every register (R85). -/
abbrev Byte := BitVec 8

/-- A 16-bit logical address (R55). -/
abbrev Addr := BitVec 16

/-- A 32-bit transaction word (R80). -/
abbrev Word := BitVec 32

/-- A 4-bit index: a logical block number `a[15:12]`, a page index `a[3:0]`, or a programmable task number
(R25, R55, R96). -/
abbrev Nib := BitVec 4

/-- A byte buffer handed to the block at machine start (`ROM_IMAGE`, `RAM_INIT`, R7): byte 0 first. -/
abbrev Image := List Byte

/-- Byte `o` of a launch image. Offsets past the end of the list read 0, so that every byte buffer is some list
(log entry 8). -/
def Image.byte (im : Image) (o : Nat) : Byte := im.getD o 0#8

/-- A table of sixteen entries, one per 4-bit index: a page-table row or the paged part of the routing table. -/
abbrev Vec16 (α : Type) := Vector α 16

/-- Entry `i` of a table. -/
def Vec16.get {α : Type} (v : Vec16 α) (i : Nib) : α := v[i.toNat]'i.isLt

/-- The table with entry `i` replaced by `x`. -/
def Vec16.set {α : Type} (v : Vec16 α) (i : Nib) (x : α) : Vec16 α := Vector.set v i.toNat x i.isLt

/-- The table whose entry `i` is `f i`. Written out so that the kernel evaluates it entry by entry. -/
def Vec16.tab {α : Type} (f : Nib → α) : Vec16 α :=
  #v[f 0, f 1, f 2, f 3, f 4, f 5, f 6, f 7, f 8, f 9, f 10, f 11, f 12, f 13, f 14, f 15]

end Sys2Proof
end

