-- ==== Sys2Proof/Config.lean ====
section
/-! DEFINITION. The parameters of the block (00_scope.md R7, R8; 93_implementation_defined.md), each a field of `Config`
or, where R7 derives it, a function of the fields; the values R7 fixes; and the ones it leaves open (OPEN, a launch
parameter, a draw), which are constants with no body. -/

namespace Sys2Proof

/-- Which transition of the NMI trigger pulses NMI (R208, D24). -/
inductive NmiEdge where
  | rising
  | falling
  | both
  deriving DecidableEq, Repr

/-- The parameters of R7, in the order of its table. The machine carries them as data no transaction writes, and reads
each rule's parameters from here (log entry 6). -/
structure Config where
  /-- `ADDR_BITS`: the logical address width. `Addr` has it (`SizesWf`). -/
  addrBits : Nat
  /-- `BLOCK_BITS`: log2 of the block size. -/
  blockBits : Nat
  /-- `NUM_BLOCKS`: page blocks per task, the entries of a page-table row and the index of the I/O routing entry. -/
  numBlocks : Nat
  /-- `NUM_ROUTE`: routing-table entries, the blocks and the I/O entry. -/
  numRoute : Nat
  /-- `NUM_TASKS`: page-table rows, the programmable ones and the constant one. -/
  numTasks : Nat
  /-- `DEFAULT_TASK`: the reserved unpaged task, whose row is constant. -/
  defaultTask : Fin 17
  /-- `PTE_BITS`: the page-table entry width. -/
  pteBits : Nat
  /-- `RAM_BLOCKS`: installed RAM in 4 KiB blocks. -/
  ramBlocks : Nat
  /-- `ROM_BLOCKS`: ROM size in 4 KiB blocks, a power of two. -/
  romBlocks : Nat
  /-- `IO_BASE`: the first logical address of the I/O window. -/
  ioBase : Addr
  /-- `IO_LIMIT`: the last logical address of the I/O window. -/
  ioLimit : Addr
  /-- `REG_BASE`: the first logical address of the block's register window. -/
  regBase : Addr
  /-- `REG_LIMIT`: the last logical address of the block's register window. -/
  regLimit : Addr
  /-- `OVL_FIRST`: the first logical block the ROM overlay forces. -/
  ovlFirst : Nat
  /-- `NUM_SOURCES`: interrupt sources. A `Byte` holds one bit of each (`SizesWf`). -/
  numSources : Nat
  /-- `LATCHED_MASK`: the sources cleared only by a status read. -/
  latchedMask : Byte
  /-- `ROUTE_IRQ`: the sources wired to IRQ. -/
  routeIrq : Byte
  /-- `ROUTE_FIRQ`: the sources wired to FIRQ. -/
  routeFirq : Byte
  /-- `NMI_EDGE`: the transition of the NMI trigger that pulses NMI. -/
  nmiEdge : NmiEdge
  /-- `IGNORE_FIRST_NMI`: whether the first NMI edge after reset is swallowed. -/
  ignoreFirstNmi : Bool
  /-- `YIELD_ON_UNHALT`: whether a writer yields to a CPU it un-halts. -/
  yieldOnUnhalt : Bool
  /-- `IACK_VECTOR`: the byte an IRQ acknowledge returns. -/
  iackVector : Byte
  /-- `UNMAPPED_READ`: the sentinel an unimplemented register reads as. -/
  unmappedRead : Byte
  /-- `ROM_IMAGE`: the ROM contents. This is the state variable `ROM` of R22, a constant. -/
  romImage : Image
  /-- `RAM_INIT`: the RAM contents at power-on. -/
  ramInit : Image
  deriving DecidableEq, Repr

namespace Config

/-! ### Derived parameters (R7) -/

/-- `BLOCK_SIZE` = 2^`BLOCK_BITS` bytes. -/
def blockSize (c : Config) : Nat := 2 ^ c.blockBits

/-- `PHYS_BLOCKS` = 2^`PTE_BITS`, the physical block numbers an entry can name. -/
def physBlocks (c : Config) : Nat := 2 ^ c.pteBits

/-- `ROM_FIRST`, the first PTE value of the explicit ROM range: 256 − `ROM_BLOCKS`. -/
def romFirst (c : Config) : Nat := c.physBlocks - c.romBlocks

/-! ### Constraints -/

/-- The sizes the transaction word and the registers are laid out for (R7; 30_encoding.md R81, R86, R87, R94, R95): a
16-bit ADDR field, 4-bit task and page fields, 8-bit entries and source sets. The types of the model's tables and words
have these sizes (log entry 6). -/
abbrev SizesWf (c : Config) : Prop :=
  c.addrBits = 16 ∧ c.blockBits = 12 ∧ c.numBlocks = 16 ∧ c.numRoute = 17 ∧ c.numTasks = 17 ∧
    c.defaultTask.val = 16 ∧ c.pteBits = 8 ∧ c.numSources = 8

/-- The shape of the two windows (20_memory.md R55; 30_encoding.md R85): the register window lies inside the I/O window
and is the 32 bytes whose offset is `a[4:0]`, so it starts at a multiple of 32 (log entry 20). -/
abbrev WindowsWf (c : Config) : Prop :=
  c.ioBase ≤ c.regBase ∧ c.regLimit ≤ c.ioLimit ∧ c.regLimit.toNat = c.regBase.toNat + 31 ∧ c.regBase.toNat % 32 = 0

/-- The constraints of R8: `ROM_BLOCKS` is a power of two from 1 to 64 and `1 ≤ RAM_BLOCKS ≤ ROM_FIRST`. -/
abbrev BlocksWf (c : Config) : Prop :=
  c.romBlocks ∈ [1, 2, 4, 8, 16, 32, 64] ∧ 1 ≤ c.ramBlocks ∧ c.ramBlocks ≤ c.romFirst

/-- The parameters are ones the spec's rules are written for. -/
abbrev Wf (c : Config) : Prop := c.SizesWf ∧ c.WindowsWf ∧ c.BlocksWf

/-! ### The values this spec fixes, and the open ones -/

/-- The value column of R7, over the three values that column leaves to the platform: the OPEN boolean
`IGNORE_FIRST_NMI` and the two launch images. -/
def standard (ignoreFirst : Bool) (rom ram : Image) : Config where
  addrBits := 16
  blockBits := 12
  numBlocks := 16
  numRoute := 17
  numTasks := 17
  defaultTask := 16
  pteBits := 8
  ramBlocks := 64
  romBlocks := 4
  ioBase := 0xFC00#16
  ioLimit := 0xFEFF#16
  regBase := 0xFCC0#16
  regLimit := 0xFCDF#16
  ovlFirst := 12
  numSources := 8
  latchedMask := 0x18#8
  routeIrq := 0xFF#8
  routeFirq := 0xFF#8
  nmiEdge := .rising
  ignoreFirstNmi := ignoreFirst
  yieldOnUnhalt := true
  iackVector := 0xFF#8
  unmappedRead := 0xFF#8
  romImage := rom
  ramInit := ram

/-- `IGNORE_FIRST_NMI` is OPEN (R209, D26): a constant with no body (log entry 7). -/
opaque openIgnoreFirstNmi : Bool

/-- `ROM_IMAGE` is a launch parameter (R7, D6): a constant with no body (log entry 8). -/
opaque launchRom : Image

/-- `RAM_INIT` is a launch parameter (R241, D34): a constant with no body (log entry 8). -/
opaque launchRam : Image

/-- The byte the environment answers to the `n`-th external I/O read: a draw under no law (R13, D16, I14; log
entry 5). -/
opaque extByte : Nat → Byte

/-- The configuration of the machine `State.reset` stands for. -/
def launch : Config := standard openIgnoreFirstNmi launchRom launchRam

end Config

end Sys2Proof
end

