-- ==== Sys2Proof/Machine/Translate.lean ====
section
/-! DEFINITION. The pure part of translation: the logical address map (20_memory.md R55, R67), the page-table entry
decode, the ROM overlay and the default row (10_state.md R26, R31; 20_memory.md R56, R57, R58). It stands before the
decoder and before State, which both use it. -/

namespace Sys2Proof

/-- The address is in the I/O window `IO_BASE`–`IO_LIMIT` (R55). -/
def inIoWindow (c : Config) (a : Addr) : Bool := decide (c.ioBase ≤ a) && decide (a ≤ c.ioLimit)

/-- The address is in the block's register window `REG_BASE`–`REG_LIMIT` (R55). -/
def inRegWindow (c : Config) (a : Addr) : Bool := decide (c.regBase ≤ a) && decide (a ≤ c.regLimit)

/-- External I/O: the I/O window minus the register window (R16, R53). -/
def isExternal (c : Config) (a : Addr) : Bool := inIoWindow c a && !inRegWindow c a

/-- The register offset `a[4:0]` (R55, R85, R96). -/
def regOffset (a : Addr) : BitVec 5 := a.extractLsb' 0 5

/-- The unimplemented register offsets 0x09–0x0F (R85, R100). -/
def isUnimplemented (c : Config) (a : Addr) : Bool :=
  inRegWindow c a && decide (0x09#5 ≤ regOffset a) && decide (regOffset a ≤ 0x0F#5)

/-- The logical block number: the address over `BLOCK_SIZE`, `a[15:12]` (R55). -/
def blockOf (c : Config) (a : Addr) : Nib := BitVec.ofNat 4 (a.toNat / c.blockSize)

/-- The intra-block offset: the address modulo `BLOCK_SIZE`, `a[11:0]` (R55). -/
def offsetOf (c : Config) (a : Addr) : Nat := a.toNat % c.blockSize

namespace Machine

/-- The region of a routing entry (R31). -/
inductive Region where
  | ram
  | rom
  | io
  deriving DecidableEq, Repr

/-- A routing entry, or the route of one address: region, byte offset into that region's array, and the
write-enabled flag (R31, R63). -/
structure RouteEntry where
  region : Region
  base : Nat
  writable : Bool
  deriving DecidableEq, Repr

/-- `decode_pte(v)` (R57): a value below `RAM_BLOCKS` names that RAM block, writable; every other value names ROM
block `v mod ROM_BLOCKS`, read-only, whether it is the explicit ROM range or RAM that is not installed. -/
def decodePte (c : Config) (v : Byte) : RouteEntry :=
  if v.toNat < c.ramBlocks then ⟨.ram, v.toNat * c.blockSize, true⟩
  else ⟨.rom, v.toNat % c.romBlocks * c.blockSize, false⟩

/-- The route the ROM overlay forces on logical block `b` (R56, R58). -/
def overlayRoute (c : Config) (b : Nib) : RouteEntry :=
  ⟨.rom, (b.toNat - c.ovlFirst) % c.romBlocks * c.blockSize, false⟩

/-- The ROM overlay covers logical block `b` (R56, R58). -/
def overlaid (c : Config) (ovl : Bool) (b : Nib) : Bool := ovl && decide (c.ovlFirst ≤ b.toNat)

/-- The body of `resolve` once the page-table entry is read (R56): the overlay bit wins over the entry. -/
def resolvePte (c : Config) (ovl : Bool) (pte : Byte) (b : Nib) : RouteEntry :=
  if overlaid c ovl b then overlayRoute c b else decodePte c pte

/-- `DEFAULT_ROW` (R26): logical block 0 is ROM block 0, every other block the RAM block of its own number. -/
def defaultRow (c : Config) (b : Nib) : Byte :=
  if b = 0#4 then BitVec.ofNat 8 c.romFirst else b.zeroExtend 8

end Machine

end Sys2Proof
end

