-- ==== Sys2Proof/Syntax.lean ====
section
/-! DEFINITION. The transactions of the block as syntax: one constructor per row of spec/opcode_table.json, each with
the operands its rule names (30_encoding.md R96, R97, R105). -/

namespace Sys2Proof

/-- The two masters (10_state.md R47): the main CPU (number 0) and the DMA-assist CPU (number 1). -/
inductive Master where
  | main
  | dma
  deriving DecidableEq, Repr

/-- A decoded transaction. `m` is the master, `ib` the instruction-boundary flag (R81), `a` a logical address, `n` a
page index, `d` a written byte. -/
inductive Instr where
  -- 40_memory_transactions.md
  | rdMem (m : Master) (ib : Bool) (a : Addr)
  | wrMem (m : Master) (ib : Bool) (a : Addr) (d : Byte)
  | rdExtio (m : Master) (ib : Bool) (a : Addr)
  | wrExtio (m : Master) (ib : Bool) (a : Addr) (d : Byte)
  -- 41_mmu_registers.md
  | rdTaskSel (m : Master) (ib : Bool)
  | wrTaskSel (m : Master) (ib : Bool) (d : Byte)
  | rdEditTask (m : Master) (ib : Bool)
  | wrEditTask (m : Master) (ib : Bool) (d : Byte)
  | rdMmuCtrl (m : Master) (ib : Bool)
  | wrMmuCtrl (m : Master) (ib : Bool) (d : Byte)
  | rdPage (m : Master) (ib : Bool) (n : Nib)
  | wrPage (m : Master) (ib : Bool) (n : Nib) (d : Byte)
  | rdUnimpl (m : Master) (ib : Bool) (a : Addr)
  | wrUnimpl (m : Master) (ib : Bool) (a : Addr) (d : Byte)
  -- 42_interrupt_registers.md
  | rdCpuCtrl (m : Master) (ib : Bool)
  | wrCpuCtrl (m : Master) (ib : Bool) (d : Byte)
  | rdIrqEn (m : Master) (ib : Bool)
  | wrIrqEn (m : Master) (ib : Bool) (d : Byte)
  | rdFirqEn (m : Master) (ib : Bool)
  | wrFirqEn (m : Master) (ib : Bool) (d : Byte)
  | rdIntStatus (m : Master) (ib : Bool)
  | wrIntStatus (m : Master) (ib : Bool) (d : Byte)
  | rdIntSwi (m : Master) (ib : Bool)
  | wrIntSwi (m : Master) (ib : Bool) (d : Byte)
  | rdIntLines (m : Master) (ib : Bool)
  | wrIntLines (m : Master) (ib : Bool) (d : Byte)
  -- 43_sideband.md
  | iack (m : Master) (ib : Bool)
  | srcUpdate (mask val : Byte)
  | nmiIn (v : Bool)
  | reset
  deriving DecidableEq, Repr

/-- Who presents a transaction (43_sideband.md R180): a master, with its instruction-boundary flag, or the
environment (`none`). -/
def Instr.presenter : Instr → Option (Master × Bool)
  | .rdMem m ib _ => some (m, ib)
  | .wrMem m ib _ _ => some (m, ib)
  | .rdExtio m ib _ => some (m, ib)
  | .wrExtio m ib _ _ => some (m, ib)
  | .rdTaskSel m ib => some (m, ib)
  | .wrTaskSel m ib _ => some (m, ib)
  | .rdEditTask m ib => some (m, ib)
  | .wrEditTask m ib _ => some (m, ib)
  | .rdMmuCtrl m ib => some (m, ib)
  | .wrMmuCtrl m ib _ => some (m, ib)
  | .rdPage m ib _ => some (m, ib)
  | .wrPage m ib _ _ => some (m, ib)
  | .rdUnimpl m ib _ => some (m, ib)
  | .wrUnimpl m ib _ _ => some (m, ib)
  | .rdCpuCtrl m ib => some (m, ib)
  | .wrCpuCtrl m ib _ => some (m, ib)
  | .rdIrqEn m ib => some (m, ib)
  | .wrIrqEn m ib _ => some (m, ib)
  | .rdFirqEn m ib => some (m, ib)
  | .wrFirqEn m ib _ => some (m, ib)
  | .rdIntStatus m ib => some (m, ib)
  | .wrIntStatus m ib _ => some (m, ib)
  | .rdIntSwi m ib => some (m, ib)
  | .wrIntSwi m ib _ => some (m, ib)
  | .rdIntLines m ib => some (m, ib)
  | .wrIntLines m ib _ => some (m, ib)
  | .iack m ib => some (m, ib)
  | .srcUpdate _ _ => none
  | .nmiIn _ => none
  | .reset => none

end Sys2Proof
end

