-- ==== Sys2Proof/WellFormed.lean ====
section
/-! DEFINITION. The checks a transaction term meets when a transaction word spells it: the address ranges of the rows
selected by an address range, and the must-be-zero mask bit of SRC_UPDATE (20_memory.md R55; 30_encoding.md R82,
R97, R98). -/

namespace Sys2Proof

/-- What a term must satisfy to be a transaction: RD_MEM and WR_MEM stay outside the I/O window, RD_EXTIO and WR_EXTIO
inside external I/O, RD_UNIMPL and WR_UNIMPL at an unimplemented offset, under the windows of `c`, and SRC_UPDATE leaves
source 7 alone. -/
def Instr.wellFormed (c : Config) : Instr → Bool
  | .rdMem _ _ a => !inIoWindow c a
  | .wrMem _ _ a _ => !inIoWindow c a
  | .rdExtio _ _ a => isExternal c a
  | .wrExtio _ _ a _ => isExternal c a
  | .rdTaskSel _ _ => true
  | .wrTaskSel _ _ _ => true
  | .rdEditTask _ _ => true
  | .wrEditTask _ _ _ => true
  | .rdMmuCtrl _ _ => true
  | .wrMmuCtrl _ _ _ => true
  | .rdPage _ _ _ => true
  | .wrPage _ _ _ _ => true
  | .rdUnimpl _ _ a => isUnimplemented c a
  | .wrUnimpl _ _ a _ => isUnimplemented c a
  | .rdCpuCtrl _ _ => true
  | .wrCpuCtrl _ _ _ => true
  | .rdIrqEn _ _ => true
  | .wrIrqEn _ _ _ => true
  | .rdFirqEn _ _ => true
  | .wrFirqEn _ _ _ => true
  | .rdIntStatus _ _ => true
  | .wrIntStatus _ _ _ => true
  | .rdIntSwi _ _ => true
  | .wrIntSwi _ _ _ => true
  | .rdIntLines _ _ => true
  | .wrIntLines _ _ _ => true
  | .iack _ _ => true
  | .srcUpdate mask _ => !mask.getLsbD 7
  | .nmiIn _ => true
  | .reset => true

end Sys2Proof
end

