-- ==== Sys2Proof/Decode.lean ====
section
/-! DEFINITION. The decoder (30_encoding.md R97), total on every 32-bit word and refusing by name (R98); the encoder,
written from the same formats (R80 to R84); and the rows of spec/opcode_table.json (R105). -/

namespace Sys2Proof

/-- Why a word spells no transaction (R98). -/
inductive DecodeError where
  /-- KIND 110 or 111. -/
  | reservedKind
  /-- A must-be-zero field of the KIND's format is not zero. -/
  | nonZeroReservedField
  deriving DecidableEq, Repr

namespace Word

/-! ### Fields (R81, R82, R83, R96) -/

/-- `KIND = w[31:29]`. -/
def kind (w : Word) : BitVec 3 := w.extractLsb' 29 3

/-- The master `m = w[28]`: 0 MAIN, 1 DMA. -/
def master (w : Word) : Master := if w.getLsbD 28 then .dma else .main

/-- The instruction-boundary flag `ib = w[27]`. -/
def ib (w : Word) : Bool := w.getLsbD 27

/-- The must-be-zero bits `w[26:24]` of formats RW and IACK. -/
def gap (w : Word) : BitVec 3 := w.extractLsb' 24 3

/-- The logical address `a = w[23:8]`. -/
def addr (w : Word) : Addr := w.extractLsb' 8 16

/-- The data byte `d = w[7:0]`; also VALUE of SRC_UPDATE. -/
def data (w : Word) : Byte := w.extractLsb' 0 8

/-- MASK of SRC_UPDATE, `w[15:8]`. -/
def mask (w : Word) : Byte := w.extractLsb' 8 8

end Word

/-- The page index `n = a[3:0]` of PAGEn (R94, R96). -/
def pageIndex (a : Addr) : Nib := a.extractLsb' 0 4

/-- A READ in the register window, row by register offset (R85, R97). -/
def decodeRegRead (m : Master) (ib : Bool) (a : Addr) : Instr :=
  match (regOffset a).toNat with
  | 0x00 => .rdTaskSel m ib
  | 0x01 => .rdEditTask m ib
  | 0x02 => .rdMmuCtrl m ib
  | 0x03 => .rdCpuCtrl m ib
  | 0x04 => .rdIrqEn m ib
  | 0x05 => .rdFirqEn m ib
  | 0x06 => .rdIntStatus m ib
  | 0x07 => .rdIntSwi m ib
  | 0x08 => .rdIntLines m ib
  | o => if o < 0x10 then .rdUnimpl m ib a else .rdPage m ib (pageIndex a)

/-- A WRITE in the register window, row by register offset (R85, R97). -/
def decodeRegWrite (m : Master) (ib : Bool) (a : Addr) (d : Byte) : Instr :=
  match (regOffset a).toNat with
  | 0x00 => .wrTaskSel m ib d
  | 0x01 => .wrEditTask m ib d
  | 0x02 => .wrMmuCtrl m ib d
  | 0x03 => .wrCpuCtrl m ib d
  | 0x04 => .wrIrqEn m ib d
  | 0x05 => .wrFirqEn m ib d
  | 0x06 => .wrIntStatus m ib d
  | 0x07 => .wrIntSwi m ib d
  | 0x08 => .wrIntLines m ib d
  | o => if o < 0x10 then .wrUnimpl m ib a d else .wrPage m ib (pageIndex a) d

/-- A READ, row by address: register window, external I/O, memory (R97, R119). -/
def decodeRead (c : Config) (m : Master) (ib : Bool) (a : Addr) : Instr :=
  if inRegWindow c a then decodeRegRead m ib a
  else if inIoWindow c a then .rdExtio m ib a
  else .rdMem m ib a

/-- A WRITE, row by address: register window, external I/O, memory (R97, R119). -/
def decodeWrite (c : Config) (m : Master) (ib : Bool) (a : Addr) (d : Byte) : Instr :=
  if inRegWindow c a then decodeRegWrite m ib a d
  else if inIoWindow c a then .wrExtio m ib a d
  else .wrMem m ib a d

/-- The transaction a word spells (R97), or why it spells none (R98): first the KIND, then the must-be-zero fields of
its format, then the row. The windows are those of the configuration. -/
def decode (c : Config) (w : Word) : Except DecodeError Instr :=
  match w.kind.toNat with
  | 0 =>
    if w.gap = 0#3 ∧ w.data = 0#8 then .ok (decodeRead c w.master w.ib w.addr)
    else .error .nonZeroReservedField
  | 1 =>
    if w.gap = 0#3 then .ok (decodeWrite c w.master w.ib w.addr w.data)
    else .error .nonZeroReservedField
  | 2 =>
    if w.gap = 0#3 ∧ w.addr = 0#16 ∧ w.data = 0#8 then .ok (.iack w.master w.ib)
    else .error .nonZeroReservedField
  | 3 =>
    if w.extractLsb' 16 13 = 0#13 ∧ w.mask.getLsbD 7 = false then .ok (.srcUpdate w.mask w.data)
    else .error .nonZeroReservedField
  | 4 =>
    if w.extractLsb' 1 28 = 0#28 then .ok (.nmiIn (w.getLsbD 0))
    else .error .nonZeroReservedField
  | 5 =>
    if w.extractLsb' 0 29 = 0#29 then .ok .reset
    else .error .nonZeroReservedField
  | _ => .error .reservedKind

/-- The transaction the decoder reads from a table row's bits: every word is 32 bits (R80), bit 0 the least
significant, and the bits above `nbits` are 0. The table is laid out for the windows of R7. -/
def decodeTableWord (nbits w : Nat) : Option Instr :=
  if nbits ≤ 32 then (decode Config.launch (BitVec.ofNat 32 (w % 2 ^ nbits))).toOption else none

/-! ### The encoder -/

/-- The field value of a master (R47, R81). -/
def Master.bit : Master → Bool
  | .main => false
  | .dma => true

/-- The word whose only non-zero field is `v`, at bit `lo` (R9). -/
def fieldAt {n : Nat} (v : BitVec n) (lo : Nat) : Word := v.zeroExtend 32 <<< lo

/-- Format RW, and IACK with address and data 0 (R81, R84). -/
def encodeRW (kind : BitVec 3) (m : Master) (ib : Bool) (a : Addr) (d : Byte) : Word :=
  fieldAt kind 29 ||| fieldAt (BitVec.ofBool m.bit) 28 ||| fieldAt (BitVec.ofBool ib) 27 ||| fieldAt a 8 ||| fieldAt d 0

/-- Format S (R82). -/
def encodeS (mask val : Byte) : Word := fieldAt 0b011#3 29 ||| fieldAt mask 8 ||| fieldAt val 0

/-- Format N (R83). -/
def encodeN (v : Bool) : Word := fieldAt 0b100#3 29 ||| fieldAt (BitVec.ofBool v) 0

/-- A READ word: KIND 000, DATA 0. -/
def encodeRead (m : Master) (ib : Bool) (a : Addr) : Word := encodeRW 0b000#3 m ib a 0#8

/-- A WRITE word: KIND 001. -/
def encodeWrite (m : Master) (ib : Bool) (a : Addr) (d : Byte) : Word := encodeRW 0b001#3 m ib a d

/-- The logical address of the register at an offset of the register window (R85). -/
def regAddr (c : Config) (o : BitVec 5) : Addr := c.regBase + o.zeroExtend 16

/-- The logical address of page register `n`, offset 0x10 + n (R94). -/
def pageAddr (c : Config) (n : Nib) : Addr := regAddr c (0x10#5 + n.zeroExtend 5)

/-- The word of a well-formed transaction (R80 to R84, R85). -/
def encode (c : Config) : Instr → Word
  | .rdMem m ib a => encodeRead m ib a
  | .wrMem m ib a d => encodeWrite m ib a d
  | .rdExtio m ib a => encodeRead m ib a
  | .wrExtio m ib a d => encodeWrite m ib a d
  | .rdTaskSel m ib => encodeRead m ib (regAddr c 0x00#5)
  | .wrTaskSel m ib d => encodeWrite m ib (regAddr c 0x00#5) d
  | .rdEditTask m ib => encodeRead m ib (regAddr c 0x01#5)
  | .wrEditTask m ib d => encodeWrite m ib (regAddr c 0x01#5) d
  | .rdMmuCtrl m ib => encodeRead m ib (regAddr c 0x02#5)
  | .wrMmuCtrl m ib d => encodeWrite m ib (regAddr c 0x02#5) d
  | .rdPage m ib n => encodeRead m ib (pageAddr c n)
  | .wrPage m ib n d => encodeWrite m ib (pageAddr c n) d
  | .rdUnimpl m ib a => encodeRead m ib a
  | .wrUnimpl m ib a d => encodeWrite m ib a d
  | .rdCpuCtrl m ib => encodeRead m ib (regAddr c 0x03#5)
  | .wrCpuCtrl m ib d => encodeWrite m ib (regAddr c 0x03#5) d
  | .rdIrqEn m ib => encodeRead m ib (regAddr c 0x04#5)
  | .wrIrqEn m ib d => encodeWrite m ib (regAddr c 0x04#5) d
  | .rdFirqEn m ib => encodeRead m ib (regAddr c 0x05#5)
  | .wrFirqEn m ib d => encodeWrite m ib (regAddr c 0x05#5) d
  | .rdIntStatus m ib => encodeRead m ib (regAddr c 0x06#5)
  | .wrIntStatus m ib d => encodeWrite m ib (regAddr c 0x06#5) d
  | .rdIntSwi m ib => encodeRead m ib (regAddr c 0x07#5)
  | .wrIntSwi m ib d => encodeWrite m ib (regAddr c 0x07#5) d
  | .rdIntLines m ib => encodeRead m ib (regAddr c 0x08#5)
  | .wrIntLines m ib d => encodeWrite m ib (regAddr c 0x08#5) d
  | .iack m ib => encodeRW 0b010#3 m ib 0#16 0#8
  | .srcUpdate mask val => encodeS mask val
  | .nmiIn v => encodeN v
  | .reset => fieldAt 0b101#3 29

/-! ### The rows of spec/opcode_table.json -/

/-- A row's mask and match over the 32-bit word: a word is of the row when `w & mask = match` (R105). -/
structure TableRow where
  rowMask : Word
  rowMatch : Word
  deriving DecidableEq, Repr

/-- The row of spec/opcode_table.json a constructor stands for. The rows of one pair (RD_EXTIO and RD_MEM, WR_EXTIO and
WR_MEM) share mask and match and differ in their `ADDR` range, which is the term's well-formedness. -/
def Instr.row : Instr → TableRow
  | .rdMem _ _ _ => ⟨0xE70000FF#32, 0x00000000#32⟩
  | .wrMem _ _ _ _ => ⟨0xE7000000#32, 0x20000000#32⟩
  | .rdExtio _ _ _ => ⟨0xE70000FF#32, 0x00000000#32⟩
  | .wrExtio _ _ _ _ => ⟨0xE7000000#32, 0x20000000#32⟩
  | .rdTaskSel _ _ => ⟨0xE7FFFFFF#32, 0x00FCC000#32⟩
  | .wrTaskSel _ _ _ => ⟨0xE7FFFF00#32, 0x20FCC000#32⟩
  | .rdEditTask _ _ => ⟨0xE7FFFFFF#32, 0x00FCC100#32⟩
  | .wrEditTask _ _ _ => ⟨0xE7FFFF00#32, 0x20FCC100#32⟩
  | .rdMmuCtrl _ _ => ⟨0xE7FFFFFF#32, 0x00FCC200#32⟩
  | .wrMmuCtrl _ _ _ => ⟨0xE7FFFF00#32, 0x20FCC200#32⟩
  | .rdPage _ _ _ => ⟨0xE7FFF0FF#32, 0x00FCD000#32⟩
  | .wrPage _ _ _ _ => ⟨0xE7FFF000#32, 0x20FCD000#32⟩
  | .rdUnimpl _ _ _ => ⟨0xE7FFF8FF#32, 0x00FCC800#32⟩
  | .wrUnimpl _ _ _ _ => ⟨0xE7FFF800#32, 0x20FCC800#32⟩
  | .rdCpuCtrl _ _ => ⟨0xE7FFFFFF#32, 0x00FCC300#32⟩
  | .wrCpuCtrl _ _ _ => ⟨0xE7FFFF00#32, 0x20FCC300#32⟩
  | .rdIrqEn _ _ => ⟨0xE7FFFFFF#32, 0x00FCC400#32⟩
  | .wrIrqEn _ _ _ => ⟨0xE7FFFF00#32, 0x20FCC400#32⟩
  | .rdFirqEn _ _ => ⟨0xE7FFFFFF#32, 0x00FCC500#32⟩
  | .wrFirqEn _ _ _ => ⟨0xE7FFFF00#32, 0x20FCC500#32⟩
  | .rdIntStatus _ _ => ⟨0xE7FFFFFF#32, 0x00FCC600#32⟩
  | .wrIntStatus _ _ _ => ⟨0xE7FFFF00#32, 0x20FCC600#32⟩
  | .rdIntSwi _ _ => ⟨0xE7FFFFFF#32, 0x00FCC700#32⟩
  | .wrIntSwi _ _ _ => ⟨0xE7FFFF00#32, 0x20FCC700#32⟩
  | .rdIntLines _ _ => ⟨0xE7FFFFFF#32, 0x00FCC800#32⟩
  | .wrIntLines _ _ _ => ⟨0xE7FFFF00#32, 0x20FCC800#32⟩
  | .iack _ _ => ⟨0xE7FFFFFF#32, 0x40000000#32⟩
  | .srcUpdate _ _ => ⟨0xFFFF8000#32, 0x60000000#32⟩
  | .nmiIn _ => ⟨0xFFFFFFFE#32, 0x80000000#32⟩
  | .reset => ⟨0xFFFFFFFF#32, 0xA0000000#32⟩

end Sys2Proof
end

