-- ==== Sys2Proof/Machine/State.lean ====
section
/-! DEFINITION. The state of the block (10_state.md R22 to R48), the reasons a step can stop, and the state after
reset (43_sideband.md R186; 70_reset_and_hazards.md R240, R241). -/

namespace Sys2Proof.Machine

/-- An output level the history records changes of (R45). NMI is a pulse and has no level (R37). -/
inductive Line where
  | irq
  | firq
  | haltMain
  | haltDma
  deriving DecidableEq, Repr

/-- An event of the history (R45). -/
inductive Event where
  /-- `LINE(l, v)`: output level `l` changed to `v`. -/
  | line (l : Line) (v : Bool)
  /-- `NMI_PULSE`: one NMI pulse to the DMA CPU. -/
  | nmiPulse
  /-- `EXT_RD(a, v)`: an external I/O read of `a` that answered `v`. -/
  | extRd (a : Addr) (v : Byte)
  /-- `EXT_WR(a, v)`: an external I/O write of `v` to `a`. -/
  | extWr (a : Addr) (v : Byte)
  /-- `REPLY(m, v)`: byte `v` returned to master `m`. -/
  | reply (m : Master) (v : Byte)
  /-- `RESET_MARK`: a RESET. -/
  | resetMark
  deriving DecidableEq, Repr

/-- Whether the last transaction presented was performed or had no step (R201). The third outcome of R201, refused, is
the interface's own (`Refusal`). -/
inductive TxOutcome where
  | done
  | stuck
  deriving DecidableEq, Repr

/-- The programmable rows of the Page Table: `PT[t][b]` for t, b in 0..15 (R25). -/
abbrev PageTable := Vec16 (Vec16 Byte)

/-- The machine. Row 16 of the Page Table and entry 16 of the routing table are constants and are supplied by
`State.ptAt` and `State.routeAt` (R25, R31; log entry 14). -/
structure State where
  /-- Every parameter of R7; holds `ROM` (as `romImage`) and `RAM_INIT`. No transaction writes it (log entry 6). -/
  cfg : Config
  /-- `RAM`: the bytes that differ from `RAM_INIT`, in canonical form (R23; log entry 9). -/
  ram : List Host.Cell
  /-- `PT[0..15][0..15]` (R25). -/
  pt : PageTable
  /-- `TASK_REQ` (R27). -/
  taskReq : Nib
  /-- `EDIT_TASK` (R28). -/
  editTask : Nib
  /-- `PG_EN` (R29). -/
  pgEn : Bool
  /-- `ROM_OVL` (R30). -/
  romOvl : Bool
  /-- `ROUTE[0..15]` (R31, R32). -/
  route : Vec16 RouteEntry
  /-- `SRC`, the Interrupt Source Set (R33). -/
  src : Byte
  /-- `IRQ_EN` (R34). -/
  irqEn : Byte
  /-- `FIRQ_EN` (R34). -/
  firqEn : Byte
  /-- `irq_line` (R35). -/
  irqLine : Bool
  /-- `firq_line` (R35). -/
  firqLine : Bool
  /-- `halt_dma` (R36). -/
  haltDma : Bool
  /-- `halt_main` (R36). -/
  haltMain : Bool
  /-- `nmi_ctl` (R37). -/
  nmiCtl : Bool
  /-- `nmi_last` (R38). -/
  nmiLast : Bool
  /-- `first_nmi_armed` (R39). -/
  firstNmiArmed : Bool
  /-- `yield_to` (R40): `none` where no CPU is waited for. -/
  yieldTo : Option Master
  /-- `history`, oldest event first (R45). -/
  history : List Event
  /-- THE MODEL'S OWN: the transaction words the masters and the environment present, next first (R80; log entry 1). -/
  pending : List Word
  /-- THE MODEL'S OWN: how many external reads have been answered; selects the next draw (R13; log entry 5). -/
  drawIndex : Nat
  /-- THE MODEL'S OWN: whether the last transaction was done or stuck (R201; log entry 4). -/
  outcome : TxOutcome
  deriving DecidableEq, Repr

/-- Internal errors. The block itself faults on nothing (R200, R201); each of these is raised only in a state whose
routing table is not the one the Bank Installer computes, which no run reaches, or by a term that is not well formed,
which the decoder never answers (log entry 12). All are safe: the model stops where the spec describes nothing. -/
inductive Fault where
  /-- Raised by RD_MEM and WR_MEM when the route names a RAM offset at or past `RAM_BLOCKS`×4096 (R64). Safe. -/
  | ramOffsetOutOfRange (o : Nat)
  /-- Raised by RD_MEM when the route names a ROM offset at or past `ROM_BLOCKS`×4096 (R64). Safe. -/
  | romOffsetOutOfRange (o : Nat)
  /-- Raised by RD_MEM and WR_MEM when the route is the I/O entry, which R110 and R112 exclude. Safe. -/
  | memoryRoutedToIo
  deriving DecidableEq, Repr

/-- Why the model gives a transaction word no meaning (log entry 11). -/
inductive Refusal where
  /-- Raised by an arm of `exec` for an instruction that has no meaning yet. Safe. No arm raises it now. -/
  | notModelled (mnemonic : String)
  /-- Raised by `step` on a word of KIND 110 or 111 (R98). Safe: the spec refuses the word. -/
  | reservedKind
  /-- Raised by `step` on a word with a non-zero must-be-zero field (R98). Safe: the spec refuses the word. -/
  | nonZeroReservedField
  deriving DecidableEq, Repr

/-- Power-on (R241): RESET (R186, R240) applied to a block with parameters `c`, RAM holding `RAM_INIT`, and an empty
history, so that the history is `[RESET_MARK]` (log entry 16). -/
def State.powerOn (c : Config) : State where
  cfg := c
  ram := []
  pt := Vec16.tab fun _ => Vec16.tab (defaultRow c)
  taskReq := 0
  editTask := 0
  pgEn := false
  romOvl := false
  route := Vec16.tab fun b => resolvePte c false (defaultRow c b) b
  src := 0
  irqEn := 0
  firqEn := 0
  irqLine := false
  firqLine := false
  haltDma := true
  haltMain := false
  nmiCtl := false
  nmiLast := false
  firstNmiArmed := c.ignoreFirstNmi
  yieldTo := none
  history := [.resetMark]
  pending := []
  drawIndex := 0
  outcome := .done

/-- The machine right after power-on reset, with the parameters R7 fixes and the open ones left open. -/
def State.reset : State := State.powerOn Config.launch

end Sys2Proof.Machine
end

