-- ==== Sys2Proof/Machine/Flags.lean ====
section
/-! DEFINITION. The block has no condition codes (10_state.md R41). What stands in their place is computed here: the
two interrupt levels, the NMI edge, and the Interrupt Source Set after each kind of update. -/

namespace Sys2Proof.Machine

/-- The level of an interrupt line: some source is pending, enabled and wired to the line (R203, R204, R205). -/
def lineLevel (src enable wiring : Byte) : Bool := (src &&& enable &&& wiring) != 0#8

/-- The transition from `last` to `v` is one that pulses NMI (R208). -/
def nmiQualifies (edge : NmiEdge) (last v : Bool) : Bool :=
  match edge with
  | .rising => !last && v
  | .falling => last && !v
  | .both => last != v

/-- `SRC` after SRC_UPDATE (R183), over sources 0 to 6: a level source in the mask takes its new condition, a latched
source in the mask is set by a 1 and keeps its value on a 0, every other source keeps its value. -/
def srcAfterUpdate (latched src mask val : Byte) : Byte :=
  let m := mask &&& 0x7F#8
  (src &&& ~~~(m &&& ~~~latched)) ||| (val &&& m)

/-- `SRC` after a read of INT_STATUS (R162): the latched sources cleared. -/
def srcAfterStatusRead (latched src : Byte) : Byte := src &&& ~~~latched

/-- `SRC` after a write of `b` to INT_SWI (R165): source 7 replaced. -/
def srcWithSwi (src : Byte) (b : Bool) : Byte := BitVec.ofBool b ++ src.extractLsb' 0 7

end Sys2Proof.Machine
end

