-- ==== Sys2Proof/Machine/Operands.lean ====
section
/-! DEFINITION. The operand forms of the register window: the byte each register reads as and the fields of a written
byte (30_encoding.md R86 to R95, R96, R99). Reserved bits read 0 and ignore what is written. -/

namespace Sys2Proof.Machine

/-! ### Read values -/

/-- TASK_SEL reads `{0000, TASK_REQ}` (R86, R130). -/
def State.taskSelByte (s : State) : Byte := 0#4 ++ s.taskReq

/-- EDIT_TASK reads `{0000, EDIT_TASK}` (R87, R132). -/
def State.editTaskByte (s : State) : Byte := 0#4 ++ s.editTask

/-- MMU_CTRL reads `{000000, ROM_OVL, PG_EN}` (R88, R134). -/
def State.mmuCtrlByte (s : State) : Byte := 0#6 ++ BitVec.ofBool s.romOvl ++ BitVec.ofBool s.pgEn

/-- CPU_CTRL reads `{halt_dma, halt_main, nmi_ctl, 00000}` (R89, R150). -/
def State.cpuCtrlByte (s : State) : Byte :=
  BitVec.ofBool s.haltDma ++ BitVec.ofBool s.haltMain ++ BitVec.ofBool s.nmiCtl ++ 0#5

/-- INT_SWI reads `{0000000, SRC[7]}` (R92, R164). -/
def State.intSwiByte (s : State) : Byte := 0#7 ++ BitVec.ofBool (s.src.getLsbD 7)

/-- INT_LINES reads `{0000, halt_dma, halt_main, firq_line, irq_line}` (R93, R168). -/
def State.intLinesByte (s : State) : Byte :=
  0#4 ++ BitVec.ofBool s.haltDma ++ BitVec.ofBool s.haltMain ++ BitVec.ofBool s.firqLine ++ BitVec.ofBool s.irqLine

/-- PAGEn reads the stored entry `PT[EDIT_TASK][n]`, not its decode (R94, R136). -/
def State.pageByte (s : State) (n : Nib) : Byte := (s.pt.get s.editTask).get n

/-! ### Fields of a written byte -/

/-- The task field `d[3:0]` of TASK_SEL and EDIT_TASK (R86, R87). -/
def taskField (d : Byte) : Nib := d.extractLsb' 0 4

/-- `PG_EN`, bit 0 of MMU_CTRL (R88). -/
def pgEnField (d : Byte) : Bool := d.getLsbD 0

/-- `ROM_OVL`, bit 1 of MMU_CTRL (R88). -/
def romOvlField (d : Byte) : Bool := d.getLsbD 1

/-- `DMA_HALT`, bit 7 of CPU_CTRL (R89). -/
def dmaHaltField (d : Byte) : Bool := d.getLsbD 7

/-- `MAIN_HALT`, bit 6 of CPU_CTRL (R89). -/
def mainHaltField (d : Byte) : Bool := d.getLsbD 6

/-- `NMI_TRIG`, bit 5 of CPU_CTRL (R89). -/
def nmiTrigField (d : Byte) : Bool := d.getLsbD 5

/-- `SWI`, bit 0 of INT_SWI (R92). -/
def swiField (d : Byte) : Bool := d.getLsbD 0

end Sys2Proof.Machine
end

