-- ==== Sys2Proof/Machine/Ops.lean ====
section
/-! DEFINITION. The named operations the meanings share: events and replies, the RAM and ROM arrays, `LIVE`, `resolve`,
`sync`, `route`, the interrupt recalculator, HALT control, admission, the presentation of transaction words, and the
reset of the state. The block takes no exception and returns from none (60_exceptions.md R200, R216, R218), so there is
no operation for either. -/

namespace Sys2Proof.Machine

/-! ### The history (R13, R45) -/

/-- `emit E`: append an event. -/
def State.emit (s : State) (e : Event) : State := { s with history := s.history ++ [e] }

/-- `reply v ; emit REPLY(m, v)`. -/
def State.reply (s : State) (m : Master) (v : Byte) : State := s.emit (.reply m v)

/-- The transaction is done, or stuck (R201). -/
def State.withOutcome (s : State) (r : TxOutcome) : State := { s with outcome := r }

/-! ### The RAM and ROM arrays (R12, R23, R24)

RAM is a list of (offset, byte) pairs, offsets strictly rising, none equal to what an unlisted offset reads as. -/

/-- The byte at offset `o`: what an unlisted offset reads as is the byte of `RAM_INIT` (R241; log entry 9). -/
def Memory.read (init : Image) : List Host.Cell → Nat → Byte
  | [], o => init.byte o
  | (a, v) :: rest, o => if a = o then v else Memory.read init rest o

/-- The list with offset `o` listed as `v`. -/
def Memory.put : List Host.Cell → Nat → Byte → List Host.Cell
  | [], o, v => [(o, v)]
  | (a, w) :: rest, o, v =>
    if o < a then (o, v) :: (a, w) :: rest
    else if o = a then (o, v) :: rest
    else (a, w) :: Memory.put rest o v

/-- The list with offset `o` unlisted. -/
def Memory.drop (m : List Host.Cell) (o : Nat) : List Host.Cell := m.filter fun c => c.1 != o

/-- Store `v` at offset `o`, keeping the canonical form: the value an unlisted offset reads as removes the entry. -/
def Memory.write (init : Image) (m : List Host.Cell) (o : Nat) (v : Byte) : List Host.Cell :=
  if v = init.byte o then Memory.drop m o else Memory.put m o v

/-- The offsets rise strictly from `lo` on, and no entry is what an unlisted offset reads as. -/
def Memory.wfFrom (init : Image) : Nat → List Host.Cell → Bool
  | _, [] => true
  | lo, (a, v) :: rest => decide (lo ≤ a) && (v != init.byte a) && Memory.wfFrom init (a + 1) rest

/-- The canonical form of a memory list. -/
def Memory.wf (init : Image) (m : List Host.Cell) : Bool := Memory.wfFrom init 0 m

/-- The size of the RAM array in bytes (R23). -/
def State.ramSize (s : State) : Nat := s.cfg.ramBlocks * s.cfg.blockSize

/-- The size of the ROM array in bytes (R24). -/
def State.romSize (s : State) : Nat := s.cfg.romBlocks * s.cfg.blockSize

/-- Byte `o` of the RAM array: the model's read of one byte of memory. -/
def State.ramByte (s : State) (o : Nat) : Byte := Memory.read s.cfg.ramInit s.ram o

/-- Byte `o` of the ROM array, which holds `ROM_IMAGE` (R24). -/
def State.romByte (s : State) (o : Nat) : Byte := s.cfg.romImage.byte o

/-- `RamRead(o)`. -/
def State.ramRead (s : State) (o : Nat) : Except Fault Byte :=
  if o < s.ramSize then .ok (s.ramByte o) else .error (.ramOffsetOutOfRange o)

/-- `RomRead(o)`. -/
def State.romRead (s : State) (o : Nat) : Except Fault Byte :=
  if o < s.romSize then .ok (s.romByte o) else .error (.romOffsetOutOfRange o)

/-- The state with byte `o` of RAM set to `v`. -/
def State.withRamByte (s : State) (o : Nat) (v : Byte) : State :=
  { s with ram := Memory.write s.cfg.ramInit s.ram o v }

/-- `RamWrite(o, v)`. -/
def State.ramWrite (s : State) (o : Nat) (v : Byte) : Except Fault State :=
  if o < s.ramSize then .ok (s.withRamByte o v) else .error (.ramOffsetOutOfRange o)

/-! ### Translation (R54 to R63) -/

/-- `LIVE` (R54): `TASK_REQ` with paging enabled, else the default task, `DEFAULT_TASK` = 16. -/
def State.live (s : State) : Fin 17 :=
  if s.pgEn then ⟨s.taskReq.toNat, by omega⟩ else s.cfg.defaultTask

/-- `PT[t][b]` for t in 0..16: the row of `DEFAULT_TASK` is the constant `DEFAULT_ROW` (R25, R26). -/
def State.ptAt (s : State) (t : Fin 17) (b : Nib) : Byte :=
  if t = s.cfg.defaultTask then defaultRow s.cfg b else (s.pt.get (BitVec.ofNat 4 t.val)).get b

/-- `resolve(t, b)` (R56). -/
def State.resolve (s : State) (t : Fin 17) (b : Nib) : RouteEntry := resolvePte s.cfg s.romOvl (s.ptAt t b) b

/-- `sync(lo, hi)`, the Bank Installer (R60). -/
def State.sync (s : State) (lo hi : Nib) : State :=
  { s with route := Vec16.tab fun b => if lo ≤ b ∧ b ≤ hi then s.resolve s.live b else s.route.get b }

/-- Entry `NUM_BLOCKS` of the routing table, of the I/O window: the constant (IO, 0, true) (R31). -/
def ioEntry : RouteEntry := ⟨.io, 0, true⟩

/-- `ROUTE[i]` for i in 0..16: the entries of the blocks, then the I/O entry (R31). -/
def State.routeAt (s : State) (i : Fin 17) : RouteEntry :=
  if i.val < s.cfg.numBlocks then s.route.get (BitVec.ofNat 4 i.val) else ioEntry

/-- `route(a)` (R63): the I/O window first, then the routing entry of the block, at the intra-block offset. -/
def State.routeOf (s : State) (a : Addr) : RouteEntry :=
  if inIoWindow s.cfg a then { ioEntry with base := a.toNat }
  else
    let e := s.route.get (blockOf s.cfg a)
    { e with base := e.base + offsetOf s.cfg a }

/-- The byte a route reads (R110): `RamRead` or `RomRead` at its offset. -/
def State.readRoute (s : State) (r : RouteEntry) : Except Fault Byte :=
  match r.region with
  | .ram => s.ramRead r.base
  | .rom => s.romRead r.base
  | .io => .error .memoryRoutedToIo

/-- A write through a route (R112): `RamWrite` at its offset when it is writable, else the byte is discarded. -/
def State.writeRoute (s : State) (r : RouteEntry) (v : Byte) : Except Fault State :=
  match r.region with
  | .ram => if r.writable then s.ramWrite r.base v else .ok s
  | .rom => .ok s
  | .io => .error .memoryRoutedToIo

/-! ### External I/O (R13, R114, R116) -/

/-- The byte the environment answers to the next external read: a draw (log entry 5). -/
def State.nextDraw (s : State) : Byte := Config.extByte s.drawIndex

/-- The draw is used up. -/
def State.drawn (s : State) : State := { s with drawIndex := s.drawIndex + 1 }

/-! ### The Interrupt Recalculator (R203 to R208) -/

/-- `recalc_irq()` (R204): the line is set, and the event appended, only on change. -/
def State.recalcIrq (s : State) : State :=
  let new := lineLevel s.src s.irqEn s.cfg.routeIrq
  if new = s.irqLine then s else ({ s with irqLine := new } : State).emit (.line .irq new)

/-- `recalc_firq()` (R205). -/
def State.recalcFirq (s : State) : State :=
  let new := lineLevel s.src s.firqEn s.cfg.routeFirq
  if new = s.firqLine then s else ({ s with firqLine := new } : State).emit (.line .firq new)

/-- `recalc()` (R206). -/
def State.recalc (s : State) : State := s.recalcIrq.recalcFirq

/-- `recalc_nmi(v)` (R208). -/
def State.recalcNmi (s : State) (v : Bool) : State :=
  let t := { s with nmiLast := v }
  if nmiQualifies s.cfg.nmiEdge s.nmiLast v then
    if s.firstNmiArmed then { t with firstNmiArmed := false } else t.emit .nmiPulse
  else t

/-! ### HALT and admission (R210 to R212) -/

/-- `halt_c`. -/
def State.halt (s : State) : Master → Bool
  | .main => s.haltMain
  | .dma => s.haltDma

/-- `halt_c <- v`. -/
def State.withHalt (s : State) : Master → Bool → State
  | .main, v => { s with haltMain := v }
  | .dma, v => { s with haltDma := v }

/-- The HALT line of CPU `c` (R36, R45). -/
def haltLine : Master → Line
  | .main => .haltMain
  | .dma => .haltDma

/-- `set_halt(c, v, w)` (R210), for a CPU, its new bit and the writing master. -/
def State.setHalt (s : State) (c : Master) (v : Bool) (w : Master) : State :=
  if v = s.halt c then s
  else
    let t := (s.withHalt c v).emit (.line (haltLine c) v)
    if v then if t.yieldTo = some c then { t with yieldTo := none } else t
    else if c ≠ w ∧ s.cfg.yieldOnUnhalt then { t with yieldTo := some c } else t

/-- Admission (R211): `none` where the transaction is stuck, else the state it proceeds from. -/
def State.admission (s : State) (m : Master) (ib : Bool) : Option State :=
  if ib then
    if s.halt m then none
    else
      match s.yieldTo with
      | none => some s
      | some x => if x = m then some { s with yieldTo := none } else none
  else some s

/-- What a meaning answers. -/
abbrev Answer := Host.Outcome State Fault Refusal

/-- A master's transaction (R118): stuck, with no state of the block changed, where admission has no step (log entry 3);
else done, as its rule `k` says. -/
def State.admitted (s : State) (m : Master) (ib : Bool) (k : State → Answer) : Answer :=
  match s.admission m ib with
  | none => .next (s.withOutcome .stuck)
  | some t => k (t.withOutcome .done)

/-- A transaction of the environment (R180): no admission, never stuck. -/
def State.accepted (s : State) : State := s.withOutcome .done

/-! ### RESET (R186) -/

/-- The assignments of RESET, in the order of R186: everything but RAM, ROM and the earlier history. -/
def State.resetBlock (s : State) : State :=
  let t := { s with
    pt := Vec16.tab fun _ => Vec16.tab (defaultRow s.cfg)
    taskReq := 0, editTask := 0, pgEn := false, romOvl := false
    src := 0, irqEn := 0, firqEn := 0
    irqLine := false, firqLine := false
    haltDma := true, haltMain := false
    nmiCtl := false, nmiLast := false, firstNmiArmed := s.cfg.ignoreFirstNmi
    yieldTo := none }
  (t.sync 0 15).emit .resetMark

/-! ### Presentation of transaction words (R80; log entries 1 and 2) -/

/-- The next word presented, and the state with it taken. -/
def State.takeWord (s : State) : Option (Word × State) :=
  match s.pending with
  | [] => none
  | w :: rest => some (w, { s with pending := rest })

/-- `w` presented before every word already waiting. -/
def State.present (s : State) (w : Word) : State := { s with pending := w :: s.pending }

/-- The refusal a word that spells no transaction meets (R98, R201). -/
def refusalOf : DecodeError → Refusal
  | .reservedKind => .reservedKind
  | .nonZeroReservedField => .nonZeroReservedField

end Sys2Proof.Machine
end

