-- ==== Sys2Proof/Machine/Interrupt.lean ====
section
/-! DEFINITION. The interrupt and CPU-control registers (42_interrupt_registers.md). -/

namespace Sys2Proof.Machine

/-- RD_CPU_CTRL (R150). -/
def execRdCpuCtrl (m : Master) (ib : Bool) (s : State) : Answer :=
  s.admitted m ib fun s => .next (s.reply m s.cpuCtrlByte)

/-- WR_CPU_CTRL (R151), in the rule's order: the DMA halt bit, the main halt bit, the NMI trigger. -/
def execWrCpuCtrl (m : Master) (ib : Bool) (d : Byte) (s : State) : Answer :=
  s.admitted m ib fun s =>
    let t := (s.setHalt .dma (dmaHaltField d) m).setHalt .main (mainHaltField d) m
    .next (({ t with nmiCtl := nmiTrigField d } : State).recalcNmi (nmiTrigField d))

/-- RD_IRQ_EN (R155). -/
def execRdIrqEn (m : Master) (ib : Bool) (s : State) : Answer :=
  s.admitted m ib fun s => .next (s.reply m s.irqEn)

/-- WR_IRQ_EN (R156). -/
def execWrIrqEn (m : Master) (ib : Bool) (d : Byte) (s : State) : Answer :=
  s.admitted m ib fun s => .next ({ s with irqEn := d } : State).recalc

/-- RD_FIRQ_EN (R157). -/
def execRdFirqEn (m : Master) (ib : Bool) (s : State) : Answer :=
  s.admitted m ib fun s => .next (s.reply m s.firqEn)

/-- WR_FIRQ_EN (R158). -/
def execWrFirqEn (m : Master) (ib : Bool) (d : Byte) (s : State) : Answer :=
  s.admitted m ib fun s => .next ({ s with firqEn := d } : State).recalc

/-- RD_INT_STATUS (R162): replies `SRC` before masking, then clears the latched sources and recalculates. -/
def execRdIntStatus (m : Master) (ib : Bool) (s : State) : Answer :=
  s.admitted m ib fun s =>
    let t := s.reply m s.src
    .next ({ t with src := srcAfterStatusRead t.cfg.latchedMask t.src } : State).recalc

/-- WR_INT_STATUS (R163): discarded. -/
def execWrIntStatus (m : Master) (ib : Bool) (_d : Byte) (s : State) : Answer :=
  s.admitted m ib fun s => .next s

/-- RD_INT_SWI (R164). -/
def execRdIntSwi (m : Master) (ib : Bool) (s : State) : Answer :=
  s.admitted m ib fun s => .next (s.reply m s.intSwiByte)

/-- WR_INT_SWI (R165). -/
def execWrIntSwi (m : Master) (ib : Bool) (d : Byte) (s : State) : Answer :=
  s.admitted m ib fun s => .next ({ s with src := srcWithSwi s.src (swiField d) } : State).recalc

/-- RD_INT_LINES (R168). -/
def execRdIntLines (m : Master) (ib : Bool) (s : State) : Answer :=
  s.admitted m ib fun s => .next (s.reply m s.intLinesByte)

/-- WR_INT_LINES (R169): discarded. -/
def execWrIntLines (m : Master) (ib : Bool) (_d : Byte) (s : State) : Answer :=
  s.admitted m ib fun s => .next s

end Sys2Proof.Machine
end

