-- ==== Sys2Proof/Machine/Memory.lean ====
section
/-! DEFINITION. The memory transactions: READ and WRITE outside the register window (40_memory_transactions.md). -/

namespace Sys2Proof.Machine

/-- RD_MEM (R110). -/
def execRdMem (m : Master) (ib : Bool) (a : Addr) (s : State) : Answer :=
  s.admitted m ib fun s =>
    match s.readRoute (s.routeOf a) with
    | .ok v => .next (s.reply m v)
    | .error f => .fault f

/-- WR_MEM (R112). -/
def execWrMem (m : Master) (ib : Bool) (a : Addr) (d : Byte) (s : State) : Answer :=
  s.admitted m ib fun s =>
    match s.writeRoute (s.routeOf a) d with
    | .ok t => .next t
    | .error f => .fault f

/-- RD_EXTIO (R114): the value is a draw, recorded once (log entry 10) and replied. -/
def execRdExtio (m : Master) (ib : Bool) (a : Addr) (s : State) : Answer :=
  s.admitted m ib fun s => .next ((s.drawn.emit (.extRd a s.nextDraw)).reply m s.nextDraw)

/-- WR_EXTIO (R116): the write is recorded once (log entry 10) and changes no state of the block. -/
def execWrExtio (m : Master) (ib : Bool) (a : Addr) (d : Byte) (s : State) : Answer :=
  s.admitted m ib fun s => .next (s.emit (.extWr a d))

end Sys2Proof.Machine
end

