-- ==== Sys2Proof/Machine/Mmu.lean ====
section
/-! DEFINITION. The translation-control registers and the unimplemented offsets (41_mmu_registers.md). -/

namespace Sys2Proof.Machine

/-- RD_TASK_SEL (R130). -/
def execRdTaskSel (m : Master) (ib : Bool) (s : State) : Answer :=
  s.admitted m ib fun s => .next (s.reply m s.taskSelByte)

/-- WR_TASK_SEL (R131): `set_task`, with a full sync every time. -/
def execWrTaskSel (m : Master) (ib : Bool) (d : Byte) (s : State) : Answer :=
  s.admitted m ib fun s => .next (({ s with taskReq := taskField d } : State).sync 0 15)

/-- RD_EDIT_TASK (R132). -/
def execRdEditTask (m : Master) (ib : Bool) (s : State) : Answer :=
  s.admitted m ib fun s => .next (s.reply m s.editTaskByte)

/-- WR_EDIT_TASK (R133): no sync. -/
def execWrEditTask (m : Master) (ib : Bool) (d : Byte) (s : State) : Answer :=
  s.admitted m ib fun s => .next { s with editTask := taskField d }

/-- RD_MMU_CTRL (R134). -/
def execRdMmuCtrl (m : Master) (ib : Bool) (s : State) : Answer :=
  s.admitted m ib fun s => .next (s.reply m s.mmuCtrlByte)

/-- WR_MMU_CTRL (R135): both mode bits, with a full sync every time. -/
def execWrMmuCtrl (m : Master) (ib : Bool) (d : Byte) (s : State) : Answer :=
  s.admitted m ib fun s => .next (({ s with pgEn := pgEnField d, romOvl := romOvlField d } : State).sync 0 15)

/-- RD_PAGE (R136). -/
def execRdPage (m : Master) (ib : Bool) (n : Nib) (s : State) : Answer :=
  s.admitted m ib fun s => .next (s.reply m (s.pageByte n))

/-- `PT[EDIT_TASK][n] <- d` (R137). -/
def State.withPage (s : State) (n : Nib) (d : Byte) : State :=
  { s with pt := s.pt.set s.editTask ((s.pt.get s.editTask).set n d) }

/-- WR_PAGE (R137): `configure`, with a sync of exactly that block when the edited row is live. -/
def execWrPage (m : Master) (ib : Bool) (n : Nib) (d : Byte) (s : State) : Answer :=
  s.admitted m ib fun s =>
    let t := s.withPage n d
    .next (if t.pgEn = true ∧ t.editTask = t.taskReq then t.sync n n else t)

/-- RD_UNIMPL (R138): the sentinel, at every unimplemented offset. -/
def execRdUnimpl (m : Master) (ib : Bool) (_a : Addr) (s : State) : Answer :=
  s.admitted m ib fun s => .next (s.reply m s.cfg.unmappedRead)

/-- WR_UNIMPL (R139): discarded. -/
def execWrUnimpl (m : Master) (ib : Bool) (_a : Addr) (_d : Byte) (s : State) : Answer :=
  s.admitted m ib fun s => .next s

end Sys2Proof.Machine
end

