-- ==== Sys2Proof/Machine/Sideband.lean ====
section
/-! DEFINITION. The sideband transactions (43_sideband.md). -/

namespace Sys2Proof.Machine

/-- IACK (R181): replies `IACK_VECTOR`, clears no source and drops no line. -/
def execIack (m : Master) (ib : Bool) (s : State) : Answer :=
  s.admitted m ib fun s => .next (s.reply m s.cfg.iackVector)

/-- SRC_UPDATE (R183). -/
def execSrcUpdate (mask val : Byte) (s : State) : Answer :=
  .next ({ s.accepted with src := srcAfterUpdate s.cfg.latchedMask s.src mask val } : State).recalc

/-- NMI_IN (R184). -/
def execNmiIn (v : Bool) (s : State) : Answer := .next (s.accepted.recalcNmi v)

/-- RESET (R186). -/
def execReset (s : State) : Answer := .next s.accepted.resetBlock

end Sys2Proof.Machine
end

