-- ==== Sys2Proof/Machine/Dispatch.lean ====
section
/-! DEFINITION. The dispatch: one arm per constructor of Instr, each one direct call of that transaction's meaning. -/

namespace Sys2Proof.Machine

def exec (i : Instr) (s : State) : Host.Outcome State Fault Refusal :=
  match i with
  -- 40_memory_transactions.md
  | .rdMem m ib a => Sys2Proof.Machine.execRdMem m ib a s
  | .wrMem m ib a d => Sys2Proof.Machine.execWrMem m ib a d s
  | .rdExtio m ib a => Sys2Proof.Machine.execRdExtio m ib a s
  | .wrExtio m ib a d => Sys2Proof.Machine.execWrExtio m ib a d s
  -- 41_mmu_registers.md
  | .rdTaskSel m ib => Sys2Proof.Machine.execRdTaskSel m ib s
  | .wrTaskSel m ib d => Sys2Proof.Machine.execWrTaskSel m ib d s
  | .rdEditTask m ib => Sys2Proof.Machine.execRdEditTask m ib s
  | .wrEditTask m ib d => Sys2Proof.Machine.execWrEditTask m ib d s
  | .rdMmuCtrl m ib => Sys2Proof.Machine.execRdMmuCtrl m ib s
  | .wrMmuCtrl m ib d => Sys2Proof.Machine.execWrMmuCtrl m ib d s
  | .rdPage m ib n => Sys2Proof.Machine.execRdPage m ib n s
  | .wrPage m ib n d => Sys2Proof.Machine.execWrPage m ib n d s
  | .rdUnimpl m ib a => Sys2Proof.Machine.execRdUnimpl m ib a s
  | .wrUnimpl m ib a d => Sys2Proof.Machine.execWrUnimpl m ib a d s
  -- 42_interrupt_registers.md
  | .rdCpuCtrl m ib => Sys2Proof.Machine.execRdCpuCtrl m ib s
  | .wrCpuCtrl m ib d => Sys2Proof.Machine.execWrCpuCtrl m ib d s
  | .rdIrqEn m ib => Sys2Proof.Machine.execRdIrqEn m ib s
  | .wrIrqEn m ib d => Sys2Proof.Machine.execWrIrqEn m ib d s
  | .rdFirqEn m ib => Sys2Proof.Machine.execRdFirqEn m ib s
  | .wrFirqEn m ib d => Sys2Proof.Machine.execWrFirqEn m ib d s
  | .rdIntStatus m ib => Sys2Proof.Machine.execRdIntStatus m ib s
  | .wrIntStatus m ib d => Sys2Proof.Machine.execWrIntStatus m ib d s
  | .rdIntSwi m ib => Sys2Proof.Machine.execRdIntSwi m ib s
  | .wrIntSwi m ib d => Sys2Proof.Machine.execWrIntSwi m ib d s
  | .rdIntLines m ib => Sys2Proof.Machine.execRdIntLines m ib s
  | .wrIntLines m ib d => Sys2Proof.Machine.execWrIntLines m ib d s
  -- 43_sideband.md
  | .iack m ib => Sys2Proof.Machine.execIack m ib s
  | .srcUpdate mask val => Sys2Proof.Machine.execSrcUpdate mask val s
  | .nmiIn v => Sys2Proof.Machine.execNmiIn v s
  | .reset => Sys2Proof.Machine.execReset s

end Sys2Proof.Machine
end

