-- ==== Sys2Proof/Machine/Step.lean ====
section
/-! DEFINITION. One step: the next transaction word presented is decoded and performed (20_memory.md R70;
30_encoding.md R97; 60_exceptions.md R201). The block has no program counter (10_state.md R21). -/

namespace Sys2Proof.Machine

/-- Take the next word presented and perform the transaction it spells; a word that spells none is refused by name.
With no word presented the block rests: it has no clock and nothing changes (R256; log entry 2). -/
def step (s : State) : Host.Outcome State Fault Refusal :=
  match s.takeWord with
  | none => .next s
  | some (w, t) =>
    match decode s.cfg w with
    | .ok i => exec i t
    | .error e => .refused (refusalOf e)

/-- `s` with the word presented next: the low `nbits` bits of `w`, the bits above them 0 (every word has 32 bits). -/
def State.withFetchWord (s : State) (nbits w : Nat) : State := s.present (BitVec.ofNat 32 (w % 2 ^ nbits))

end Sys2Proof.Machine
end

