-- ==== Sys2Proof/Safety.lean ====
section
/-! DEFINITION. The terms the statements about the machine are written in: admission, the invariant of the block, what
the history must say, the saved state, and the shape of a register transaction. -/

namespace Sys2Proof.Machine

/-! ### Admission (R211) -/

/-- A transaction of master `m` with flag `ib` has a step: inside an instruction always; at an instruction boundary when
`m` is not halted and no other CPU is waited for (R211, R212). -/
def State.Admits (s : State) (m : Master) (ib : Bool) : Prop :=
  ib = true → s.halt m = false ∧ ∀ x, s.yieldTo = some x → x = m

/-- The transaction `i` is admitted; the environment's always is (R180). -/
def State.AdmitsInstr (s : State) (i : Instr) : Prop := ∀ m ib, i.presenter = some (m, ib) → s.Admits m ib

/-- The state an admitted transaction of `m` proceeds from: done, and with `yield_to` cleared when the CPU waited for
begins an instruction (R211). The field `outcome` is the model's own (log entry 4). -/
def State.begun (s : State) (m : Master) (ib : Bool) : State :=
  { s with
    yieldTo := if ib = true ∧ s.yieldTo = some m then none else s.yieldTo
    outcome := .done }

/-! ### The invariant -/

/-- `ROUTE[b] = resolve(LIVE, b)` for every b in 0..15 (R32, R62). -/
def State.Coherent (s : State) : Prop := ∀ b, s.route.get b = s.resolve s.live b

/-- The two line levels are the ones the recalculator computes (R207). -/
def State.LineLaw (s : State) : Prop :=
  s.irqLine = lineLevel s.src s.irqEn s.cfg.routeIrq ∧ s.firqLine = lineLevel s.src s.firqEn s.cfg.routeFirq

/-- The invariant of the block. -/
structure State.Inv (s : State) : Prop where
  /-- The parameters are ones the rules are written for (R7, R8). -/
  cfgWf : s.cfg.Wf
  /-- RAM is in canonical form. -/
  ramWf : Memory.wf s.cfg.ramInit s.ram = true
  /-- Every listed byte lies in the RAM array (R23, R64). -/
  ramBounded : ∀ c ∈ s.ram, c.1 < s.ramSize
  /-- The routing table is coherent (R62). -/
  coherent : s.Coherent
  /-- The lines are at their levels (R207). -/
  lines : s.LineLaw
  /-- A CPU waited for is not halted (R210, R212). -/
  yieldReleased : ∀ c, s.yieldTo = some c → s.halt c = false
  /-- The first NMI edge is armed to be swallowed only where `IGNORE_FIRST_NMI` says so (R39, R209). -/
  armedOnlyIfIgnoring : s.firstNmiArmed = true → s.cfg.ignoreFirstNmi = true

/-! ### The history (R45, R207) -/

/-- The four output levels. -/
structure Levels where
  irq : Bool
  firq : Bool
  haltMain : Bool
  haltDma : Bool
  deriving DecidableEq, Repr

/-- The levels right after RESET (R186). -/
def Levels.atReset : Levels := ⟨false, false, false, true⟩

/-- One level. -/
def Levels.get (v : Levels) : Line → Bool
  | .irq => v.irq
  | .firq => v.firq
  | .haltMain => v.haltMain
  | .haltDma => v.haltDma

/-- One level replaced. -/
def Levels.set (v : Levels) : Line → Bool → Levels
  | .irq, b => { v with irq := b }
  | .firq, b => { v with firq := b }
  | .haltMain, b => { v with haltMain := b }
  | .haltDma, b => { v with haltDma := b }

/-- The levels after an event; `none` where a `LINE` event repeats the level its line already has. -/
def Levels.after (v : Levels) : Event → Option Levels
  | .line l b => if v.get l = b then none else some (v.set l b)
  | .resetMark => some Levels.atReset
  | .nmiPulse => some v
  | .extRd _ _ => some v
  | .extWr _ _ => some v
  | .reply _ _ => some v

/-- The levels after a list of events. -/
def Levels.replay (v : Levels) : List Event → Option Levels
  | [] => some v
  | e :: es =>
    match v.after e with
    | none => none
    | some u => u.replay es

/-- The levels the block drives. -/
def State.levels (s : State) : Levels := ⟨s.irqLine, s.firqLine, s.haltMain, s.haltDma⟩

/-- The history records every level change exactly once: replaying it never repeats a level, so the `LINE` events of
each line alternate between resets, and it ends in the levels the block drives (R45, R207). -/
def State.HistoryExact (s : State) : Prop := Levels.atReset.replay s.history = some s.levels

/-- The `LINE` event of a level that goes from `old` to `new`: none where nothing changes (R45). -/
def changeEvent (l : Line) (old new : Bool) : List Event := if new = old then [] else [.line l new]

/-- The events of `recalc()` that ends with the two levels given, IRQ before FIRQ (R206, R214). -/
def State.recalcEvents (s : State) (irq firq : Bool) : List Event :=
  changeEvent .irq s.irqLine irq ++ changeEvent .firq s.firqLine firq

/-- The step of the NMI trigger from `last` to `v` is a qualifying edge of polarity `e` (R208). -/
def NmiOccurs (e : NmiEdge) (last v : Bool) : Prop :=
  match e with
  | .rising => last = false ∧ v = true
  | .falling => last = true ∧ v = false
  | .both => last ≠ v

/-- A qualifying NMI edge pulses: it is an edge and the first-NMI guard is not armed (R208). -/
def State.nmiPulses (s : State) (v : Bool) : Bool :=
  nmiQualifies s.cfg.nmiEdge s.nmiLast v && !s.firstNmiArmed

/-! ### The saved state -/

/-- The two states agree on the part of the saved state (R46) that the routing table and the line levels are computed
from: the parameters, the Page Table, the task selector, the mode bits, the source set and the enable masks. -/
def State.SameSaved (s t : State) : Prop :=
  t.cfg = s.cfg ∧ t.pt = s.pt ∧ t.taskReq = s.taskReq ∧ t.pgEn = s.pgEn ∧ t.romOvl = s.romOvl ∧
    t.src = s.src ∧ t.irqEn = s.irqEn ∧ t.firqEn = s.firqEn

/-! ### The shape of a master's transaction -/

/-- `i` is stuck wherever it is not admitted: no state of the block changes (R118, R201). That this is a
next state with the outcome marked is the model's (log entries 3 and 4). -/
def StuckUnlessAdmitted (i : Instr) (m : Master) (ib : Bool) : Prop :=
  ∀ s : State, ¬ s.Admits m ib → exec i s = .next { s with outcome := .stuck }

/-- Where the register that R85 lists at address `a` stands: at its offset in the register window of `c`, which under the
values of R7 is `a` itself (R55, R85). -/
def registerAt (c : Config) (a : Addr) : Addr := c.regBase + (a - 0xFCC0#16)

/-- Under the windows of `c`, `i` is the READ of address `a`, and it replies `value` of the state and nothing else wherever
it is admitted. -/
def ReadsRegister (c : Config) (i : Instr) (m : Master) (ib : Bool) (a : Addr) (value : State → Byte) : Prop :=
  decode c (encodeRead m ib a) = .ok i ∧ StuckUnlessAdmitted i m ib ∧
    ∀ s : State, s.Admits m ib →
      exec i s = .next { s.begun m ib with history := s.history ++ [.reply m (value s)] }

/-- Under the windows of `c`, `i` is the WRITE of `d` to address `a`, and wherever it is admitted it completes with an
effect, a relation between the state it proceeds from and the next state. -/
def WritesRegister (c : Config) (i : Instr) (m : Master) (ib : Bool) (a : Addr) (d : Byte)
    (effect : State → State → Prop) : Prop :=
  decode c (encodeWrite m ib a d) = .ok i ∧ StuckUnlessAdmitted i m ib ∧
    ∀ s : State, s.Admits m ib → ∃ t, exec i s = .next t ∧ effect (s.begun m ib) t

end Sys2Proof.Machine
end

