-- ==== Sys2Proof/Certificates/Slice0/Obligations.lean ====
section
/-! DEFINITION. The statements for the provers: the numbered rules of the spec, as claims about the machine. -/

open Sys2Proof Sys2Proof.Machine

/-! ### Encoding and the step -/

/-- R104: the ten encoding examples, under the parameters of R7. -/
def Obligations.WorkedWordsDecode : Prop :=
  decode Config.launch 0x00000000#32 = .ok (.rdMem .main false 0x0000#16) ∧
  decode Config.launch 0x08123400#32 = .ok (.rdMem .main true 0x1234#16) ∧
  decode Config.launch 0x10123400#32 = .ok (.rdMem .dma false 0x1234#16) ∧
  decode Config.launch 0x20FCC201#32 = .ok (.wrMmuCtrl .main false 0x01#8) ∧
  decode Config.launch 0x30FCC300#32 = .ok (.wrCpuCtrl .dma false 0x00#8) ∧
  decode Config.launch 0x20FCD53F#32 = .ok (.wrPage .main false 5#4 0x3F#8) ∧
  decode Config.launch 0x40000000#32 = .ok (.iack .main false) ∧
  decode Config.launch 0x60000202#32 = .ok (.srcUpdate 0x02#8 0x02#8) ∧
  decode Config.launch 0x80000001#32 = .ok (.nmiIn true) ∧
  decode Config.launch 0xA0000000#32 = .ok .reset

/-- Decoding the word of a well-formed transaction gives it back, whatever its operands and wherever the windows lie. -/
def Obligations.DecodeInvertsEncode : Prop :=
  ∀ (c : Config) (i : Instr), c.Wf → i.wellFormed c = true → decode c (encode c i) = .ok i

/-- Each word has at most one meaning: a word that decodes is the encoding of what it decodes to, which is well
formed. -/
def Obligations.EncodeInvertsDecode : Prop :=
  ∀ (c : Config) (w : Word) (i : Instr), c.Wf → decode c w = .ok i → i.wellFormed c = true ∧ encode c i = w

/-- R98: exactly the words with KIND 110 or 111, or with a non-zero bit in a must-be-zero field, are refused, and a step
on one is the refusal of that name. -/
def Obligations.MalformedWordsRefused : Prop :=
  (∀ (c : Config) (w : Word), decode c w = .error .reservedKind ↔
    w.extractLsb' 29 3 = 0b110#3 ∨ w.extractLsb' 29 3 = 0b111#3) ∧
  (∀ (c : Config) (w : Word), decode c w = .error .nonZeroReservedField ↔
    (w.extractLsb' 29 3 = 0b000#3 ∧ (w.extractLsb' 24 3 ≠ 0#3 ∨ w.extractLsb' 0 8 ≠ 0#8)) ∨
    (w.extractLsb' 29 3 = 0b001#3 ∧ w.extractLsb' 24 3 ≠ 0#3) ∨
    (w.extractLsb' 29 3 = 0b010#3 ∧
      (w.extractLsb' 24 3 ≠ 0#3 ∨ w.extractLsb' 8 16 ≠ 0#16 ∨ w.extractLsb' 0 8 ≠ 0#8)) ∨
    (w.extractLsb' 29 3 = 0b011#3 ∧ (w.extractLsb' 16 13 ≠ 0#13 ∨ w.getLsbD 15 = true)) ∨
    (w.extractLsb' 29 3 = 0b100#3 ∧ w.extractLsb' 1 28 ≠ 0#28) ∨
    (w.extractLsb' 29 3 = 0b101#3 ∧ w.extractLsb' 0 29 ≠ 0#29)) ∧
  (∀ (s : State) (w : Word) (rest : List Word), s.pending = w :: rest →
    (decode s.cfg w = .error .reservedKind → step s = .refused .reservedKind) ∧
    (decode s.cfg w = .error .nonZeroReservedField → step s = .refused .nonZeroReservedField))

/-- A step performs the transaction the next word spells, from the state with that word taken; with no word presented
nothing changes. The list of words is the model's own (log entries 1 and 2). -/
def Obligations.StepRunsPresentedTransaction : Prop :=
  (∀ (s : State) (w : Word) (rest : List Word) (i : Instr), s.pending = w :: rest →
    decode s.cfg w = .ok i → step s = exec i { s with pending := rest }) ∧
  (∀ s : State, s.pending = [] → step s = .next s)

/-- Presenting the word of a well-formed transaction makes the next step perform exactly that transaction
(the presentation of words is the model's own: log entry 1). -/
def Obligations.PresentedWordIsPerformed : Prop :=
  ∀ (s : State) (i : Instr), s.cfg.Wf → i.wellFormed s.cfg = true →
    step (s.withFetchWord 32 (encode s.cfg i).toNat) = exec i s

/-! ### Admission and outcomes -/

/-- R118, R201, R180: every transaction a master presents is stuck, and changes nothing of the block, exactly where
admission has no step; every other one that completes is done; and the environment's are never stuck. How the two
outcomes are held is the model's own (log entries 3 and 4). -/
def Obligations.StuckExactlyWhenNotAdmitted : Prop :=
  ∀ (i : Instr) (s : State),
    (¬ s.AdmitsInstr i → exec i s = .next { s with outcome := .stuck }) ∧
    (s.AdmitsInstr i → ∀ t, exec i s = .next t → t.outcome = .done) ∧
    (i.presenter = none → s.AdmitsInstr i)

/-- No transaction faults and none is refused: from a state of the invariant, every transaction completes (done or
stuck), and a step stops only on a word that spells no transaction. (A stuck transaction is a next state of the model: log
entry 3; the faults are its own: log entry 12.) -/
def Obligations.EveryTransactionCompletes : Prop :=
  (∀ (i : Instr) (s : State), s.Inv → i.wellFormed s.cfg = true → ∃ t, exec i s = .next t) ∧
  (∀ s : State, s.Inv → (∃ t, step s = .next t) ∨ ∃ w rest e, s.pending = w :: rest ∧ decode s.cfg w = .error e)

/-! ### Translation -/

/-- R54: `LIVE` is `TASK_REQ` with paging enabled and `DEFAULT_TASK` = 16 without; a task written while paging is
disabled is kept, leaves the live task alone, and is live once paging is enabled. -/
def Obligations.LiveTaskFollowsPaging : Prop :=
  (∀ s : State, s.cfg.Wf → s.live.val = if s.pgEn = true then s.taskReq.toNat else 16) ∧
  (∀ (s : State) (m : Master) (d e : Byte), s.cfg.Wf → s.pgEn = false → e.getLsbD 0 = true →
    ∃ t u, exec (.wrTaskSel m false d) s = .next t ∧ t.taskReq = d.extractLsb' 0 4 ∧ t.live.val = 16 ∧
      exec (.wrMmuCtrl m false e) t = .next u ∧ u.live.val = (d.extractLsb' 0 4).toNat)

/-- R56, R25, R26: the overlay bit wins over the page-table entry, for every task, and row 16 is `DEFAULT_ROW`. -/
def Obligations.ResolvePriority : Prop :=
  ∀ (s : State) (t : Fin 17) (b : Nib), s.cfg.Wf →
    s.resolve t b =
      (if s.romOvl = true ∧ s.cfg.ovlFirst ≤ b.toNat
       then ⟨.rom, (b.toNat - s.cfg.ovlFirst) % s.cfg.romBlocks * 4096, false⟩
       else decodePte s.cfg (s.ptAt t b)) ∧
    s.ptAt 16 b = (if b = 0#4 then BitVec.ofNat 8 s.cfg.romFirst else BitVec.ofNat 8 b.toNat) ∧
    (∀ k : Nib, t.val = k.toNat → s.ptAt t b = (s.pt.get k).get b)

/-- R57, R8: an entry below `RAM_BLOCKS` is that RAM block, writable; every other entry is ROM block `v mod ROM_BLOCKS`,
read-only, which on the explicit ROM range is ROM block `v − ROM_FIRST`. -/
def Obligations.PteDecode : Prop :=
  ∀ (c : Config) (v : Byte), c.Wf →
    (v.toNat < c.ramBlocks → decodePte c v = ⟨.ram, v.toNat * 4096, true⟩) ∧
    (c.ramBlocks ≤ v.toNat → decodePte c v = ⟨.rom, v.toNat % c.romBlocks * 4096, false⟩) ∧
    (c.romFirst ≤ v.toNat → decodePte c v = ⟨.rom, (v.toNat - c.romFirst) * 4096, false⟩)

/-- R63, R59: an address of the I/O window routes to I/O whatever the map holds; every other address routes through its
block's routing entry, at its intra-block offset. -/
def Obligations.RouteOfAddress : Prop :=
  ∀ (s : State) (a : Addr), s.cfg.Wf →
    (s.cfg.ioBase ≤ a ∧ a ≤ s.cfg.ioLimit → (s.routeOf a).region = .io ∧ (s.routeOf a).base = a.toNat) ∧
    (a < s.cfg.ioBase ∨ s.cfg.ioLimit < a →
      s.routeOf a =
        ⟨(s.route.get (a.extractLsb' 12 4)).region,
         (s.route.get (a.extractLsb' 12 4)).base + a.toNat % 4096,
         (s.route.get (a.extractLsb' 12 4)).writable⟩)

/-- R64: no route leaves the arrays: every RAM route is below `RAM_BLOCKS`×4096, every ROM route below
`ROM_BLOCKS`×4096, a RAM route is writable and a ROM route is not; an entry that names RAM that is not installed resolves
to ROM. -/
def Obligations.RouteStaysInBounds : Prop :=
  (∀ (s : State) (t : Fin 17) (b : Nib), s.cfg.ramBlocks ≤ (s.ptAt t b).toNat → (s.resolve t b).region = .rom) ∧
  ∀ (s : State) (a : Addr), s.cfg.Wf → s.Coherent →
    ((s.routeOf a).region = .ram → (s.routeOf a).base < s.cfg.ramBlocks * 4096 ∧ (s.routeOf a).writable = true) ∧
    ((s.routeOf a).region = .rom → (s.routeOf a).base < s.cfg.romBlocks * 4096 ∧ (s.routeOf a).writable = false)

/-- R60, R62: a sync recomputes exactly the entries of its range and nothing else of the machine, and is idempotent. -/
def Obligations.SyncRecomputesItsRange : Prop :=
  ∀ (s : State) (lo hi : Nib),
    (∀ b, (s.sync lo hi).route.get b = if lo ≤ b ∧ b ≤ hi then s.resolve s.live b else s.route.get b) ∧
    { s.sync lo hi with route := s.route } = s ∧
    (s.sync lo hi).sync lo hi = s.sync lo hi

/-- R62 (b), R32: every transaction keeps the routing table coherent. -/
def Obligations.CoherenceKept : Prop :=
  ∀ (i : Instr) (s t : State), s.Coherent → exec i s = .next t → t.Coherent

/-! ### Memory transactions -/

/-- R110, R111: RD_MEM replies the byte of the RAM block the live entry names, or of the ROM block the overlay or the
entry names, and changes nothing else. -/
def Obligations.RdMemReplies : Prop :=
  ∀ (m : Master) (ib : Bool) (a : Addr),
    (∀ c : Config, c.Wf → (a < c.ioBase ∨ c.ioLimit < a) → decode c (encodeRead m ib a) = .ok (.rdMem m ib a)) ∧
    StuckUnlessAdmitted (.rdMem m ib a) m ib ∧
    ∀ s : State, s.cfg.Wf → s.Coherent → s.Admits m ib → (a < s.cfg.ioBase ∨ s.cfg.ioLimit < a) →
      let b := a.extractLsb' 12 4
      let pte := s.ptAt s.live b
      let v :=
        if s.romOvl = true ∧ s.cfg.ovlFirst ≤ b.toNat then
          s.romByte ((b.toNat - s.cfg.ovlFirst) % s.cfg.romBlocks * 4096 + a.toNat % 4096)
        else if pte.toNat < s.cfg.ramBlocks then s.ramByte (pte.toNat * 4096 + a.toNat % 4096)
        else s.romByte (pte.toNat % s.cfg.romBlocks * 4096 + a.toNat % 4096)
      exec (.rdMem m ib a) s = .next { s.begun m ib with history := s.history ++ [.reply m v] }

/-- R112: WR_MEM stores its byte at the RAM offset its address routes to and every other byte of RAM reads as before;
where the address routes to ROM the write is discarded. Nothing but RAM changes. -/
def Obligations.WrMemStores : Prop :=
  ∀ (m : Master) (ib : Bool) (a : Addr) (d : Byte),
    (∀ c : Config, c.Wf → (a < c.ioBase ∨ c.ioLimit < a) → decode c (encodeWrite m ib a d) = .ok (.wrMem m ib a d)) ∧
    StuckUnlessAdmitted (.wrMem m ib a d) m ib ∧
    ∀ s : State, s.cfg.Wf → s.Coherent → s.Admits m ib → (a < s.cfg.ioBase ∨ s.cfg.ioLimit < a) →
      ∃ t, exec (.wrMem m ib a d) s = .next t ∧ t = { s.begun m ib with ram := t.ram } ∧
        ((s.routeOf a).writable = true → (s.routeOf a).region = .ram ∧ t.ramByte (s.routeOf a).base = d ∧
          ∀ o, o ≠ (s.routeOf a).base → t.ramByte o = s.ramByte o) ∧
        ((s.routeOf a).writable = false → (s.routeOf a).region = .rom ∧ t.ram = s.ram ∧
          ∀ o, t.ramByte o = s.ramByte o)

/-- R112, R113, R71: a byte written through one logical address is the byte a later READ of either master replies through
any logical address that routes to the same RAM byte, and no READ through another route sees the write. -/
def Obligations.WriteThenReadAlias : Prop :=
  ∀ (s : State) (m m' : Master) (a a' : Addr) (d : Byte), s.cfg.Wf → s.Coherent →
    (a < s.cfg.ioBase ∨ s.cfg.ioLimit < a) → (a' < s.cfg.ioBase ∨ s.cfg.ioLimit < a') →
    ∃ t v w, exec (.wrMem m false a d) s = .next t ∧
      exec (.rdMem m' false a') s = .next { s.begun m' false with history := s.history ++ [.reply m' v] } ∧
      exec (.rdMem m' false a') t = .next { t.begun m' false with history := t.history ++ [.reply m' w] } ∧
      w = if (s.routeOf a).writable = true ∧ s.routeOf a' = s.routeOf a then d else v

/-- R114, R116, R115: an external read records and replies one draw, whatever its value, and an external write is
recorded; neither changes any state of the block. The value read is free (log entry 5), and that one access is
one event is inferred (log entry 10). -/
def Obligations.ExternalIoRecorded : Prop :=
  ∀ (c : Config) (m : Master) (ib : Bool) (a : Addr) (d : Byte), c.ioBase ≤ a → a ≤ c.ioLimit →
    (a < c.regBase ∨ c.regLimit < a) →
    decode c (encodeRead m ib a) = .ok (.rdExtio m ib a) ∧ StuckUnlessAdmitted (.rdExtio m ib a) m ib ∧
    (∀ s : State, s.Admits m ib → ∃ v, exec (.rdExtio m ib a) s =
      .next { s.begun m ib with history := s.history ++ [.extRd a v, .reply m v], drawIndex := s.drawIndex + 1 }) ∧
    WritesRegister c (.wrExtio m ib a d) m ib a d (fun s t => t = { s with history := s.history ++ [.extWr a d] })

/-! ### Translation-control registers -/

/-- R130, R132, R134, R136, R138: what the translation-control registers read as. -/
def Obligations.MmuRegisterReads : Prop :=
  ∀ (c : Config) (m : Master) (ib : Bool), c.Wf →
    ReadsRegister c (.rdTaskSel m ib) m ib (registerAt c 0xFCC0#16) (fun s => 0#4 ++ s.taskReq) ∧
    ReadsRegister c (.rdEditTask m ib) m ib (registerAt c 0xFCC1#16) (fun s => 0#4 ++ s.editTask) ∧
    ReadsRegister c (.rdMmuCtrl m ib) m ib (registerAt c 0xFCC2#16)
      (fun s => 0#6 ++ BitVec.ofBool s.romOvl ++ BitVec.ofBool s.pgEn) ∧
    (∀ n : Nib, ReadsRegister c (.rdPage m ib n) m ib (registerAt c (0xFCD0#16 + BitVec.ofNat 16 n.toNat))
      (fun s => (s.pt.get s.editTask).get n)) ∧
    (∀ a : Addr, 0xFCC9#16 ≤ a → a ≤ 0xFCCF#16 →
      ReadsRegister c (.rdUnimpl m ib (registerAt c a)) m ib (registerAt c a) (fun s => s.cfg.unmappedRead)) ∧
    Config.launch.unmappedRead = 0xFF#8

/-- R131: WR_TASK_SEL keeps the low four bits in `TASK_REQ` and resyncs every entry. With paging disabled, and where the
task is already selected, a coherent routing table is left as it was. -/
def Obligations.WrTaskSelEffect : Prop :=
  ∀ (c : Config) (m : Master) (ib : Bool) (d : Byte), c.Wf →
    WritesRegister c (.wrTaskSel m ib d) m ib (registerAt c 0xFCC0#16) d (fun s t =>
      t = { s with taskReq := d.extractLsb' 0 4, route := t.route } ∧
      (∀ b, t.route.get b = t.resolve t.live b) ∧
      (s.pgEn = false → s.Coherent → t.route = s.route) ∧
      (s.taskReq = d.extractLsb' 0 4 → s.Coherent → t = s))

/-- R133: WR_EDIT_TASK keeps the low four bits in `EDIT_TASK` and changes nothing else, the routing table included. -/
def Obligations.WrEditTaskEffect : Prop :=
  ∀ (c : Config) (m : Master) (ib : Bool) (d : Byte), c.Wf →
    WritesRegister c (.wrEditTask m ib d) m ib (registerAt c 0xFCC1#16) d
      (fun s t => t = { s with editTask := d.extractLsb' 0 4 })

/-- R135: WR_MMU_CTRL writes both mode bits, ignores the others and resyncs every entry; a write of the bits held leaves a
coherent routing table as it was. -/
def Obligations.WrMmuCtrlEffect : Prop :=
  ∀ (c : Config) (m : Master) (ib : Bool) (d : Byte), c.Wf →
    WritesRegister c (.wrMmuCtrl m ib d) m ib (registerAt c 0xFCC2#16) d (fun s t =>
      t = { s with pgEn := d.getLsbD 0, romOvl := d.getLsbD 1, route := t.route } ∧
      (∀ b, t.route.get b = t.resolve t.live b) ∧
      (s.pgEn = d.getLsbD 0 → s.romOvl = d.getLsbD 1 → s.Coherent → t = s))

/-- R137: WR_PAGE stores the byte, whatever it is, in entry n of row `EDIT_TASK` and in no other entry, and resyncs
exactly block n, exactly when that row is live. -/
def Obligations.WrPageEffect : Prop :=
  ∀ (c : Config) (m : Master) (ib : Bool) (n : Nib) (d : Byte), c.Wf →
    WritesRegister c (.wrPage m ib n d) m ib (registerAt c (0xFCD0#16 + BitVec.ofNat 16 n.toNat)) d (fun s t =>
      t = { s with pt := t.pt, route := t.route } ∧
      (∀ k b, (t.pt.get k).get b = if k = s.editTask ∧ b = n then d else (s.pt.get k).get b) ∧
      (∀ b, t.route.get b =
        if s.pgEn = true ∧ s.editTask = s.taskReq ∧ b = n then t.resolve t.live n else s.route.get b))

/-- R139, R163, R169: a write to an unimplemented offset or to a read-only register is discarded. -/
def Obligations.DiscardedRegisterWrites : Prop :=
  ∀ (c : Config) (m : Master) (ib : Bool) (d : Byte), c.Wf →
    (∀ a : Addr, 0xFCC9#16 ≤ a → a ≤ 0xFCCF#16 →
      WritesRegister c (.wrUnimpl m ib (registerAt c a) d) m ib (registerAt c a) d (fun s t => t = s)) ∧
    WritesRegister c (.wrIntStatus m ib d) m ib (registerAt c 0xFCC6#16) d (fun s t => t = s) ∧
    WritesRegister c (.wrIntLines m ib d) m ib (registerAt c 0xFCC8#16) d (fun s t => t = s)

/-- R140: after `CONFIGURE t, b, v` with paging enabled and t the live task, a READ of any address of block b outside the
I/O window replies the byte `decode_pte(v)` names, unless the overlay covers b. -/
def Obligations.ConfigureLaw : Prop :=
  ∀ (s : State) (m m' : Master) (d v : Byte) (a : Addr), s.cfg.Wf → s.Coherent → s.pgEn = true →
    s.taskReq = d.extractLsb' 0 4 → (a < s.cfg.ioBase ∨ s.cfg.ioLimit < a) →
    ¬ (s.romOvl = true ∧ s.cfg.ovlFirst ≤ (a.extractLsb' 12 4).toNat) →
    ∃ t u, exec (.wrEditTask m false d) s = .next t ∧ exec (.wrPage m false (a.extractLsb' 12 4) v) t = .next u ∧
      u.resolve u.live (a.extractLsb' 12 4) = decodePte s.cfg v ∧
      exec (.rdMem m' false a) u = .next { u.begun m' false with history := u.history ++
        [.reply m' (if v.toNat < s.cfg.ramBlocks then s.ramByte (v.toNat * 4096 + a.toNat % 4096)
          else s.romByte (v.toNat % s.cfg.romBlocks * 4096 + a.toNat % 4096))] }

/-! ### Interrupt and CPU-control registers -/

/-- R150, R155, R157, R164, R168: what the interrupt and CPU-control registers read as. -/
def Obligations.InterruptRegisterReads : Prop :=
  ∀ (c : Config) (m : Master) (ib : Bool), c.Wf →
    ReadsRegister c (.rdCpuCtrl m ib) m ib (registerAt c 0xFCC3#16)
      (fun s => BitVec.ofBool s.haltDma ++ BitVec.ofBool s.haltMain ++ BitVec.ofBool s.nmiCtl ++ 0#5) ∧
    ReadsRegister c (.rdIrqEn m ib) m ib (registerAt c 0xFCC4#16) (fun s => s.irqEn) ∧
    ReadsRegister c (.rdFirqEn m ib) m ib (registerAt c 0xFCC5#16) (fun s => s.firqEn) ∧
    ReadsRegister c (.rdIntSwi m ib) m ib (registerAt c 0xFCC7#16) (fun s => 0#7 ++ BitVec.ofBool (s.src.getLsbD 7)) ∧
    ReadsRegister c (.rdIntLines m ib) m ib (registerAt c 0xFCC8#16)
      (fun s => 0#4 ++ BitVec.ofBool s.haltDma ++ BitVec.ofBool s.haltMain ++ BitVec.ofBool s.firqLine ++
        BitVec.ofBool s.irqLine)

/-- R151, R208, R210: WR_CPU_CTRL presents its three bits in order. Each halt bit acts only on a change; a CPU that
another master releases is waited for, and one that is halted is waited for no longer; the NMI trigger pulses on a
qualifying edge unless the first-NMI guard swallows it. -/
def Obligations.WrCpuCtrlEffect : Prop :=
  ∀ (c : Config) (m : Master) (ib : Bool) (d : Byte), c.Wf →
    WritesRegister c (.wrCpuCtrl m ib d) m ib (registerAt c 0xFCC3#16) d (fun s t =>
      let dh := d.getLsbD 7
      let mh := d.getLsbD 6
      let v := d.getLsbD 5
      let y1 :=
        if dh = s.haltDma then s.yieldTo
        else if dh = true then (if s.yieldTo = some .dma then none else s.yieldTo)
        else if Master.dma ≠ m ∧ s.cfg.yieldOnUnhalt = true then some .dma else s.yieldTo
      let y2 :=
        if mh = s.haltMain then y1
        else if mh = true then (if y1 = some .main then none else y1)
        else if Master.main ≠ m ∧ s.cfg.yieldOnUnhalt = true then some .main else y1
      let edge := NmiOccurs s.cfg.nmiEdge s.nmiLast v
      t = { s with
        haltDma := dh, haltMain := mh, nmiCtl := v, nmiLast := v, yieldTo := y2
        firstNmiArmed := t.firstNmiArmed, history := t.history } ∧
      (edge → t.firstNmiArmed = false) ∧ (¬ edge → t.firstNmiArmed = s.firstNmiArmed) ∧
      t.history = s.history ++ (if dh = s.haltDma then [] else [.line .haltDma dh]) ++
        (if mh = s.haltMain then [] else [.line .haltMain mh]) ++
        (if s.nmiPulses v = true then [.nmiPulse] else []) ∧
      (s.nmiPulses v = true ↔ edge ∧ s.firstNmiArmed = false))

/-- R152: a CPU_CTRL write of the value just written changes nothing and emits nothing. -/
def Obligations.CpuCtrlRewriteIsSilent : Prop :=
  ∀ (s : State) (m m' : Master) (d : Byte), ∃ t, exec (.wrCpuCtrl m false d) s = .next t ∧
    exec (.wrCpuCtrl m' false d) t = .next t

/-- R156, R158: an enable-mask write stores the mask and recalculates both lines in the same transaction, IRQ before FIRQ
in the history; where the lines stood at their levels, only the line of the mask written can change. -/
def Obligations.EnableMaskWrites : Prop :=
  ∀ (c : Config) (m : Master) (ib : Bool) (d : Byte), c.Wf →
    WritesRegister c (.wrIrqEn m ib d) m ib (registerAt c 0xFCC4#16) d (fun s t =>
      (let irq := decide (s.src &&& d &&& s.cfg.routeIrq ≠ 0#8)
       let firq := decide (s.src &&& s.firqEn &&& s.cfg.routeFirq ≠ 0#8)
       t = { s with irqEn := d, irqLine := irq, firqLine := firq, history := s.history ++ s.recalcEvents irq firq }) ∧
      (s.LineLaw → t.firqLine = s.firqLine)) ∧
    WritesRegister c (.wrFirqEn m ib d) m ib (registerAt c 0xFCC5#16) d (fun s t =>
      (let irq := decide (s.src &&& s.irqEn &&& s.cfg.routeIrq ≠ 0#8)
       let firq := decide (s.src &&& d &&& s.cfg.routeFirq ≠ 0#8)
       t = { s with firqEn := d, irqLine := irq, firqLine := firq, history := s.history ++ s.recalcEvents irq firq }) ∧
      (s.LineLaw → t.irqLine = s.irqLine))

/-- R159, R213: clearing enable bits drops the line in the same transaction, the source still pending, when no other
enabled source is pending; setting one asserts the line in that transaction when its source is pending. `SRC` never
changes. -/
def Obligations.MaskingTakesEffectAtOnce : Prop :=
  ∀ (s : State) (m : Master) (d : Byte),
    ∃ t u, exec (.wrIrqEn m false d) s = .next t ∧ exec (.wrFirqEn m false d) s = .next u ∧
      t.src = s.src ∧ u.src = s.src ∧
      (t.irqLine = true ↔ ∃ k, k < 8 ∧ s.src.getLsbD k = true ∧ d.getLsbD k = true ∧ s.cfg.routeIrq.getLsbD k = true) ∧
      (u.firqLine = true ↔ ∃ k, k < 8 ∧ s.src.getLsbD k = true ∧ d.getLsbD k = true ∧ s.cfg.routeFirq.getLsbD k = true)

/-- R162: RD_INT_STATUS replies `SRC` before masking, then clears the latched sources and no other, and recalculates. -/
def Obligations.RdIntStatusEffect : Prop :=
  ∀ (c : Config) (m : Master) (ib : Bool), c.Wf →
    decode c (encodeRead m ib (registerAt c 0xFCC6#16)) = .ok (.rdIntStatus m ib) ∧
    StuckUnlessAdmitted (.rdIntStatus m ib) m ib ∧
    Config.launch.latchedMask = 0x18#8 ∧
    ∀ s : State, s.Admits m ib → ∃ t, exec (.rdIntStatus m ib) s = .next t ∧
      (∀ k, k < 8 → t.src.getLsbD k = (s.src.getLsbD k && !s.cfg.latchedMask.getLsbD k)) ∧
      (let irq := decide (t.src &&& s.irqEn &&& s.cfg.routeIrq ≠ 0#8)
       let firq := decide (t.src &&& s.firqEn &&& s.cfg.routeFirq ≠ 0#8)
       t = { s.begun m ib with
         src := t.src, irqLine := irq, firqLine := firq
         history := s.history ++ [.reply m s.src] ++ s.recalcEvents irq firq })

/-- R165: WR_INT_SWI sets or clears source 7 by bit 0 of the byte, leaves the other sources alone, and recalculates. -/
def Obligations.WrIntSwiEffect : Prop :=
  ∀ (c : Config) (m : Master) (ib : Bool) (d : Byte), c.Wf →
    WritesRegister c (.wrIntSwi m ib d) m ib (registerAt c 0xFCC7#16) d (fun s t =>
      t.src.getLsbD 7 = d.getLsbD 0 ∧ (∀ k, k < 7 → t.src.getLsbD k = s.src.getLsbD k) ∧
      (let irq := decide (t.src &&& s.irqEn &&& s.cfg.routeIrq ≠ 0#8)
       let firq := decide (t.src &&& s.firqEn &&& s.cfg.routeFirq ≠ 0#8)
       t = { s with
         src := t.src, irqLine := irq, firqLine := firq, history := s.history ++ s.recalcEvents irq firq }))

/-! ### Sideband transactions -/

/-- R181: IACK replies `IACK_VECTOR` and changes nothing else. -/
def Obligations.IackReplies : Prop :=
  ∀ (c : Config) (m : Master) (ib : Bool),
    decode c (0b010#3 ++ BitVec.ofBool (decide (m = .dma)) ++ BitVec.ofBool ib ++ 0#27) = .ok (.iack m ib) ∧
    StuckUnlessAdmitted (.iack m ib) m ib ∧ Config.launch.iackVector = 0xFF#8 ∧
    ∀ s : State, s.Admits m ib →
      exec (.iack m ib) s = .next { s.begun m ib with history := s.history ++ [.reply m s.cfg.iackVector] }

/-- R183: SRC_UPDATE moves each source of the mask, a latched one only upwards, leaves source 7 and every source outside
the mask alone, and recalculates. It is never stuck. -/
def Obligations.SrcUpdateEffect : Prop :=
  (∀ (c : Config) (w : Word), w.extractLsb' 29 3 = 0b011#3 → w.extractLsb' 16 13 = 0#13 → w.getLsbD 15 = false →
    decode c w = .ok (.srcUpdate (w.extractLsb' 8 8) (w.extractLsb' 0 8))) ∧
  ∀ (mask val : Byte) (s : State),
    ∃ t, exec (.srcUpdate mask val) s = .next t ∧
      (∀ k, k < 8 → t.src.getLsbD k =
        if k < 7 ∧ mask.getLsbD k = true then
          (if s.cfg.latchedMask.getLsbD k = true then (s.src.getLsbD k || val.getLsbD k) else val.getLsbD k)
        else s.src.getLsbD k) ∧
      (let irq := decide (t.src &&& s.irqEn &&& s.cfg.routeIrq ≠ 0#8)
       let firq := decide (t.src &&& s.firqEn &&& s.cfg.routeFirq ≠ 0#8)
       t = { s with
         src := t.src, irqLine := irq, firqLine := firq, outcome := .done
         history := s.history ++ s.recalcEvents irq firq })

/-- R184, R208: NMI_IN presents its bit to the edge detector, for each polarity of `NMI_EDGE`; it never writes `nmi_ctl`
and is never stuck. -/
def Obligations.NmiInEffect : Prop :=
  ∀ (c : Config) (v : Bool) (s : State),
    decode c (0b100#3 ++ 0#28 ++ BitVec.ofBool v) = .ok (.nmiIn v) ∧
    let edge := NmiOccurs s.cfg.nmiEdge s.nmiLast v
    (¬ edge → exec (.nmiIn v) s = .next { s with nmiLast := v, outcome := .done }) ∧
    (edge → s.firstNmiArmed = true →
      exec (.nmiIn v) s = .next { s with nmiLast := v, firstNmiArmed := false, outcome := .done }) ∧
    (edge → s.firstNmiArmed = false →
      exec (.nmiIn v) s = .next { s with nmiLast := v, history := s.history ++ [.nmiPulse], outcome := .done })

/-- Derived from R186, R187 and R242: RESET gives every state variable but RAM, ROM and the earlier history its reset
value, with the default row's routing, and appends `RESET_MARK`; it is never stuck. That what the environment has yet to
present, and the draws, stay is the model's choice, not the spec's (log entry 13). -/
def Obligations.ResetEffect : Prop :=
  (∀ c : Config, decode c 0xA0000000#32 = .ok .reset) ∧
  ∀ s : State, ∃ t, exec .reset s = .next t ∧
    (∀ k b, (t.pt.get k).get b = if b = 0#4 then BitVec.ofNat 8 s.cfg.romFirst else BitVec.ofNat 8 b.toNat) ∧
    (∀ b, t.route.get b = decodePte s.cfg (if b = 0#4 then BitVec.ofNat 8 s.cfg.romFirst
      else BitVec.ofNat 8 b.toNat)) ∧
    t.live = s.cfg.defaultTask ∧
    (s.cfg.Wf → t.live.val = 16 ∧ t.routeAt 0 = ⟨.rom, 0, false⟩ ∧ t.routeAt 16 = ⟨.io, 0, true⟩) ∧
    (∀ o, t.ramByte o = s.ramByte o) ∧ (∀ o, t.romByte o = s.romByte o) ∧
    t = { s with
      pt := t.pt, route := t.route, taskReq := 0, editTask := 0, pgEn := false, romOvl := false, src := 0, irqEn := 0
      firqEn := 0, irqLine := false, firqLine := false, haltDma := true, haltMain := false, nmiCtl := false
      nmiLast := false, firstNmiArmed := s.cfg.ignoreFirstNmi, yieldTo := none
      history := s.history ++ [.resetMark], outcome := .done }

/-! ### Frames: which transactions write which state -/

/-- The translation state changes only by its own register writes and RESET. -/
def Obligations.TranslationStateWriters : Prop :=
  ∀ (i : Instr) (s t : State), exec i s = .next t →
    (t.taskReq = s.taskReq ∨ (∃ m ib d, i = .wrTaskSel m ib d) ∨ i = .reset) ∧
    (t.editTask = s.editTask ∨ (∃ m ib d, i = .wrEditTask m ib d) ∨ i = .reset) ∧
    ((t.pgEn = s.pgEn ∧ t.romOvl = s.romOvl) ∨ (∃ m ib d, i = .wrMmuCtrl m ib d) ∨ i = .reset) ∧
    (∀ k b, (t.pt.get k).get b = (s.pt.get k).get b ∨
      (∃ m ib d, i = .wrPage m ib b d ∧ k = s.editTask) ∨ i = .reset) ∧
    (t.route = s.route ∨ (∃ m ib d, i = .wrTaskSel m ib d) ∨ (∃ m ib d, i = .wrMmuCtrl m ib d) ∨
      (∃ m ib n d, i = .wrPage m ib n d ∧ s.pgEn = true ∧ s.editTask = s.taskReq) ∨ i = .reset)

/-- The interrupt state changes only by SRC_UPDATE, a write to INT_SWI (source 7), a read of INT_STATUS (latched
sources), the enable-mask writes and RESET. -/
def Obligations.InterruptStateWriters : Prop :=
  ∀ (i : Instr) (s t : State), exec i s = .next t →
    (∀ k, t.src.getLsbD k = s.src.getLsbD k ∨ (∃ mask val, i = .srcUpdate mask val ∧ k < 7) ∨
      (∃ m ib d, i = .wrIntSwi m ib d ∧ k = 7) ∨
      (∃ m ib, i = .rdIntStatus m ib ∧ s.cfg.latchedMask.getLsbD k = true) ∨ i = .reset) ∧
    (t.irqEn = s.irqEn ∨ (∃ m ib d, i = .wrIrqEn m ib d) ∨ i = .reset) ∧
    (t.firqEn = s.firqEn ∨ (∃ m ib d, i = .wrFirqEn m ib d) ∨ i = .reset) ∧
    ((t.irqLine = s.irqLine ∧ t.firqLine = s.firqLine) ∨ (∃ m ib d, i = .wrIrqEn m ib d) ∨
      (∃ m ib d, i = .wrFirqEn m ib d) ∨ (∃ m ib, i = .rdIntStatus m ib) ∨ (∃ m ib d, i = .wrIntSwi m ib d) ∨
      (∃ mask val, i = .srcUpdate mask val) ∨ i = .reset)

/-- The HALT and NMI state changes only by CPU_CTRL writes, NMI_IN (the edge state) and RESET, and `yield_to` besides when
the CPU waited for begins an instruction. -/
def Obligations.HaltAndNmiStateWriters : Prop :=
  ∀ (i : Instr) (s t : State), exec i s = .next t →
    ((t.haltDma = s.haltDma ∧ t.haltMain = s.haltMain ∧ t.nmiCtl = s.nmiCtl) ∨
      (∃ m ib d, i = .wrCpuCtrl m ib d) ∨ i = .reset) ∧
    ((t.nmiLast = s.nmiLast ∧ t.firstNmiArmed = s.firstNmiArmed) ∨ (∃ m ib d, i = .wrCpuCtrl m ib d) ∨
      (∃ v, i = .nmiIn v) ∨ i = .reset) ∧
    (t.yieldTo = s.yieldTo ∨ (∃ m, s.yieldTo = some m ∧ t.yieldTo = none ∧ i.presenter = some (m, true)) ∨
      (∃ m ib d, i = .wrCpuCtrl m ib d) ∨ i = .reset)

/-- R23, R24: only a WR_MEM routed to RAM changes a byte of RAM, and only the byte its address routes to; nothing changes
ROM or any other parameter. -/
def Obligations.OnlyWrMemStores : Prop :=
  ∀ (i : Instr) (s t : State), exec i s = .next t →
    (∀ o, t.ramByte o = s.ramByte o ∨
      ∃ m ib a d, i = .wrMem m ib a d ∧ (s.routeOf a).region = .ram ∧ (s.routeOf a).writable = true ∧
        (s.routeOf a).base = o) ∧
    (∀ o, t.romByte o = s.romByte o) ∧ t.cfg = s.cfg

/-- Equal RAM is equal data: two states of the invariant with the same parameters that read the same byte everywhere hold
the same list (how RAM is held is the model's own: log entry 9). -/
def Obligations.EqualRamIsEqualData : Prop :=
  ∀ s t : State, s.Inv → t.Inv → t.cfg = s.cfg → (∀ o, o < s.ramSize → t.ramByte o = s.ramByte o) → t.ram = s.ram

/-- R45: the history is only appended to. -/
def Obligations.HistoryOnlyGrows : Prop :=
  ∀ s t : State, step s = .next t → ∃ es, t.history = s.history ++ es

/-- R141, R153: the writes that change routing have no interrupt effect, and CPU_CTRL has no effect on routing or on the
IRQ and FIRQ levels. -/
def Obligations.RoutingAndInterruptsAreSeparate : Prop :=
  ∀ (m : Master) (ib : Bool) (n : Nib) (d : Byte) (s t : State),
    (∀ i ∈ [Instr.wrTaskSel m ib d, .wrEditTask m ib d, .wrMmuCtrl m ib d, .wrPage m ib n d], exec i s = .next t →
      t.src = s.src ∧ t.irqEn = s.irqEn ∧ t.firqEn = s.firqEn ∧ t.levels = s.levels ∧ t.nmiCtl = s.nmiCtl ∧
        t.nmiLast = s.nmiLast ∧ t.firstNmiArmed = s.firstNmiArmed ∧ t.history = s.history) ∧
    (exec (.wrCpuCtrl m ib d) s = .next t →
      t.route = s.route ∧ t.pt = s.pt ∧ t.taskReq = s.taskReq ∧ t.editTask = s.editTask ∧ t.pgEn = s.pgEn ∧
        t.romOvl = s.romOvl ∧ t.irqLine = s.irqLine ∧ t.firqLine = s.firqLine)

/-! ### Whole-machine rules -/

/-- The invariant holds right after reset, and the history accounts for the levels driven there. -/
def Obligations.ResetMeetsInvariant : Prop := State.reset.Inv ∧ State.reset.HistoryExact

/-- Every step keeps the invariant of the block. -/
def Obligations.StepKeepsInvariant : Prop := ∀ s t : State, s.Inv → step s = .next t → t.Inv

/-- R207, R45: every step keeps the line levels at what the recalculator computes and the history exact: a `LINE` event is
appended on every change of a level and never without one. -/
def Obligations.StepKeepsLinesAndHistoryExact : Prop :=
  ∀ s t : State, s.LineLaw → s.HistoryExact → step s = .next t → t.LineLaw ∧ t.HistoryExact

/-- R241, R243: power-on is RESET applied to a block with RAM at `RAM_INIT` and an empty history; the history is then
`[RESET_MARK]`, the main CPU runs, the DMA CPU is held, paging is off, no line is asserted and every source is masked, and
logical block 0 is ROM block 0, read-only, where each other block is the RAM block of its number if it is installed. -/
def Obligations.PowerOnState : Prop :=
  ∀ c : Config, c.Wf →
    exec .reset { State.powerOn c with history := [] } = .next (State.powerOn c) ∧
    (State.powerOn c).history = [.resetMark] ∧ (∀ o, (State.powerOn c).ramByte o = c.ramInit.byte o) ∧
    (State.powerOn c).levels = Levels.atReset ∧ (State.powerOn c).pgEn = false ∧ (State.powerOn c).live.val = 16 ∧
    (State.powerOn c).irqEn = 0#8 ∧ (State.powerOn c).firqEn = 0#8 ∧
    (State.powerOn c).route.get 0 = ⟨.rom, 0, false⟩ ∧
    (∀ b : Nib, b ≠ 0#4 → b.toNat < c.ramBlocks → (State.powerOn c).route.get b = ⟨.ram, b.toNat * 4096, true⟩) ∧
    (∀ a : Addr, a < 0x1000#16 → (a < c.ioBase ∨ c.ioLimit < a) → exec (.rdMem .main true a) (State.powerOn c) =
      .next { State.powerOn c with history := [.resetMark, .reply .main (c.romImage.byte a.toNat)] }) ∧
    (∀ a : Addr, exec (.rdMem .dma true a) (State.powerOn c) = .next { State.powerOn c with outcome := .stuck })

/-- R240: after a RESET the main CPU reads the reset value of every register, and the reads change nothing else. -/
def Obligations.ResetReadbacks : Prop :=
  ∀ s : State, ∃ t, exec .reset s = .next t ∧
    (∀ p ∈ [(Instr.rdTaskSel .main true, 0x00#8), (.rdEditTask .main true, 0x00#8), (.rdMmuCtrl .main true, 0x00#8),
        (.rdCpuCtrl .main true, 0x80#8), (.rdIrqEn .main true, 0x00#8), (.rdFirqEn .main true, 0x00#8),
        (.rdIntStatus .main true, 0x00#8), (.rdIntSwi .main true, 0x00#8), (.rdIntLines .main true, 0x08#8)],
      exec p.1 t = .next { t with history := t.history ++ [.reply .main p.2] }) ∧
    ∀ n : Nib, exec (.rdPage .main true n) t = .next { t with history := t.history ++
      [.reply .main (if n = 0#4 then BitVec.ofNat 8 s.cfg.romFirst else BitVec.ofNat 8 n.toNat)] }

/-- R209, R252: after a RESET the first rising edge of the NMI trigger is swallowed where `IGNORE_FIRST_NMI` is true and
pulses where it is false, and the next rising edge pulses either way. -/
def Obligations.FirstNmiAfterReset : Prop :=
  ∀ s : State, s.cfg.nmiEdge = .rising →
    ∃ r t u v, exec .reset s = .next r ∧ exec (.nmiIn true) r = .next t ∧ exec (.nmiIn false) t = .next u ∧
      exec (.nmiIn true) u = .next v ∧
      t.history = r.history ++ (if s.cfg.ignoreFirstNmi = true then [] else [.nmiPulse]) ∧
      v.history = t.history ++ [.nmiPulse] ∧ v.firstNmiArmed = false

/-- R38, R184: the CPU_CTRL bit and NMI_IN share one edge detector: the level one of them has presented is no edge when
the other presents it again. -/
def Obligations.NmiInputsShareOneEdge : Prop :=
  ∀ (s : State) (m : Master) (d : Byte),
    (∃ t, exec (.wrCpuCtrl m false d) s = .next t ∧ exec (.nmiIn (d.getLsbD 5)) t = .next t) ∧
    (∃ t u, exec (.nmiIn (d.getLsbD 5)) s = .next t ∧ exec (.wrCpuCtrl m false d) t = .next u ∧
      u.firstNmiArmed = t.firstNmiArmed ∧ ∀ es, u.history = t.history ++ es → Event.nmiPulse ∉ es)

/-- Derived from R222: with both CPUs halted, whatever is presented at instruction boundaries and from outside, short of a RESET, leaves
both halted and every register a master could write as it was; the environment's transactions are still performed, and a
RESET releases the main CPU. That a stuck word is used up and the run goes on is the model's choice, not the spec's (log
entry 3). -/
def Obligations.BothHaltedUntilReset : Prop :=
  (∀ (n : Nat) (s : State), s.haltMain = true → s.haltDma = true →
    (∀ w ∈ s.pending, ∃ i, decode s.cfg w = .ok i ∧ i ≠ .reset ∧ ∀ m ib, i.presenter = some (m, ib) → ib = true) →
    ∃ t, core.run n s = .next t ∧ t.haltMain = true ∧ t.haltDma = true ∧ t.ram = s.ram ∧ t.pt = s.pt ∧
      t.route = s.route ∧ t.taskReq = s.taskReq ∧ t.editTask = s.editTask ∧ t.pgEn = s.pgEn ∧ t.romOvl = s.romOvl ∧
      t.irqEn = s.irqEn ∧ t.firqEn = s.firqEn ∧ t.nmiCtl = s.nmiCtl ∧ t.src.getLsbD 7 = s.src.getLsbD 7) ∧
  (∀ (i : Instr) (s : State), i.presenter = none → ∃ t, exec i s = .next t ∧ t.outcome = .done) ∧
  (∀ s : State, ∃ t, exec .reset s = .next t ∧ t.haltMain = false)

/-- R212: while a released CPU is waited for, no other master begins an instruction, the CPU itself may, and the wait ends
only when it begins one, when a CPU_CTRL write ends it, or by RESET. -/
def Obligations.YieldUntilReleasedCpuBegins : Prop :=
  ∀ (s : State) (c : Master), s.yieldTo = some c →
    (∀ (i : Instr) (m : Master), i.presenter = some (m, true) → m ≠ c →
      exec i s = .next { s with outcome := .stuck }) ∧
    (s.halt c = false → s.Admits c true) ∧
    (∀ (i : Instr) (t : State), exec i s = .next t → t.yieldTo ≠ some c →
      i.presenter = some (c, true) ∨ (∃ m ib d, i = .wrCpuCtrl m ib d) ∨ i = .reset)

/-- R228, R46: the routing table, every resolution and the line levels are functions of the saved state. -/
def Obligations.SavedStateDeterminesRoutingAndLines : Prop :=
  ∀ s t : State, s.Inv → t.Inv → s.SameSaved t →
    (∀ k b, t.resolve k b = s.resolve k b) ∧ t.route = s.route ∧ t.irqLine = s.irqLine ∧ t.firqLine = s.firqLine

/-- R71: the two masters share one translation: a READ replies them the same byte, and a WRITE of memory or of a
translation or mask register has the same effect whichever of them issues it. -/
def Obligations.MastersShareTheBlock : Prop :=
  (∀ (s : State) (a : Addr) (v : Byte),
    exec (.rdMem .main false a) s = .next { s.begun .main false with history := s.history ++ [.reply .main v] } ↔
    exec (.rdMem .dma false a) s = .next { s.begun .dma false with history := s.history ++ [.reply .dma v] }) ∧
  (∀ (s : State) (a : Addr) (n : Nib) (d : Byte) (f : Master → Instr),
    f ∈ [fun m => Instr.wrMem m false a d, fun m => .wrTaskSel m false d, fun m => .wrEditTask m false d,
      fun m => .wrMmuCtrl m false d, fun m => .wrPage m false n d, fun m => .wrIrqEn m false d,
      fun m => .wrFirqEn m false d, fun m => .wrIntSwi m false d] →
    exec (f .main) s = exec (f .dma) s)

/-! ### The parameters -/

/-- R7, R8: every parameter R7 gives a value has it in the machine's configuration, the derived ones included, whatever the
values R7 leaves to the platform, which are open; those parameters meet the constraints; and the registers are then at the
addresses R85 lists. The shape of the windows among the constraints is inferred (log entry 20). -/
def Obligations.LaunchParameters : Prop :=
  (∃ ign rom ram, State.reset.cfg = Config.standard ign rom ram) ∧
  ∀ (ign : Bool) (rom ram : Image),
    let c := Config.standard ign rom ram
    c.addrBits = 16 ∧ c.blockBits = 12 ∧ c.blockSize = 4096 ∧ c.numBlocks = 16 ∧ c.numRoute = 17 ∧ c.numTasks = 17 ∧
    c.defaultTask.val = 16 ∧ c.pteBits = 8 ∧ c.physBlocks = 256 ∧ c.ramBlocks = 64 ∧ c.romBlocks = 4 ∧
    c.romFirst = 252 ∧ c.ioBase = 0xFC00#16 ∧ c.ioLimit = 0xFEFF#16 ∧ c.regBase = 0xFCC0#16 ∧ c.regLimit = 0xFCDF#16 ∧
    c.ovlFirst = 12 ∧ c.numSources = 8 ∧ c.latchedMask = 0x18#8 ∧ c.routeIrq = 0xFF#8 ∧ c.routeFirq = 0xFF#8 ∧
    c.nmiEdge = .rising ∧ c.ignoreFirstNmi = ign ∧ c.yieldOnUnhalt = true ∧ c.iackVector = 0xFF#8 ∧
    c.unmappedRead = 0xFF#8 ∧ c.romImage = rom ∧ c.ramInit = ram ∧ c.Wf ∧ ∀ a : Addr, registerAt c a = a
end

