-- ==== Sys2Proof/Laws/Vec16.lean ====
section
/-! SUPPORT. The small lemmas of sixteen-entry tables: reading a table built, reading after a replacement, and equality
entry by entry. -/

namespace Sys2Proof.Vec16

/-- A 4-bit index is one of the sixteen. -/
theorem nib_cases (i : Nib) :
    i = 0 ∨ i = 1 ∨ i = 2 ∨ i = 3 ∨ i = 4 ∨ i = 5 ∨ i = 6 ∨ i = 7 ∨ i = 8 ∨ i = 9 ∨ i = 10 ∨ i = 11 ∨ i = 12 ∨
      i = 13 ∨ i = 14 ∨ i = 15 := by
  revert i; decide

@[simp] theorem get_tab {α : Type} (f : Nib → α) (i : Nib) : (tab f).get i = f i := by
  rcases nib_cases i with h | h | h | h | h | h | h | h | h | h | h | h | h | h | h | h <;> subst h <;> rfl

theorem get_set {α : Type} (v : Vec16 α) (i j : Nib) (x : α) :
    (v.set i x).get j = if j = i then x else v.get j := by
  simp only [get, set, Vector.getElem_set, ← BitVec.toNat_inj, eq_comm]

@[simp] theorem get_set_self {α : Type} (v : Vec16 α) (i : Nib) (x : α) : (v.set i x).get i = x := by
  simp [get_set]

theorem ext {α : Type} {v w : Vec16 α} (h : ∀ i, v.get i = w.get i) : v = w := by
  apply Vector.ext
  intro i hi
  simpa [get, Nat.mod_eq_of_lt hi] using h (BitVec.ofNat 4 i)

/-- A table built from another's own entries is that table. -/
theorem tab_get {α : Type} (v : Vec16 α) : (tab fun i => v.get i) = v := ext fun i => get_tab _ i

end Sys2Proof.Vec16
end

