-- ==== Sys2Proof/Laws/Decode.lean ====
section
/-! SUPPORT. The fields of an encoded word, a word rebuilt from its fields, and the addresses of the register window. -/

namespace Sys2Proof

variable (k : BitVec 3) (m : Master) (ib : Bool) (a : Addr) (d : Byte)

theorem getLsbD_fieldAt {n : Nat} (v : BitVec n) (lo i : Nat) :
    (fieldAt v lo).getLsbD i = (decide (i < 32) && !decide (i < lo) && v.getLsbD (i - lo)) := by
  simp only [fieldAt, BitVec.getLsbD_shiftLeft, BitVec.truncate_eq_setWidth, BitVec.getLsbD_setWidth]
  by_cases h : i < 32
  · have : i - lo < 32 := by omega
    simp [h, this]
  · simp [h]

theorem getLsbD_encodeRW (i : Nat) : (encodeRW k m ib a d).getLsbD i =
    if i < 8 then d.getLsbD i else if i < 24 then a.getLsbD (i - 8) else if i < 27 then false
    else if i = 27 then ib else if i = 28 then m.bit else k.getLsbD (i - 29) := by
  simp only [encodeRW, BitVec.getLsbD_or, getLsbD_fieldAt, BitVec.getLsbD_ofBool, Nat.sub_zero, Nat.not_lt_zero,
    decide_false, Bool.not_false, Bool.and_true]
  split_ifs with h1 h2 h3 h4 h5
  · have : i < 32 := by omega
    have : i < 29 := by omega
    have : i < 28 := by omega
    have : i < 27 := by omega
    simp [*]
  · have : ¬ i - 8 ≥ 16 := by omega
    rw [BitVec.getLsbD_of_ge d i (by omega)]
    simp [*, show i < 32 by omega, show i < 29 by omega, show i < 28 by omega, show i < 27 by omega]
  · rw [BitVec.getLsbD_of_ge d i (by omega), BitVec.getLsbD_of_ge a _ (by omega)]
    simp [*, show i < 32 by omega, show i < 29 by omega, show i < 28 by omega, show i < 27 by omega]
  · subst h4
    rw [BitVec.getLsbD_of_ge d _ (by omega), BitVec.getLsbD_of_ge a _ (by omega)]
    simp
  · subst h5
    rw [BitVec.getLsbD_of_ge d _ (by omega), BitVec.getLsbD_of_ge a _ (by omega)]
    simp
  · rw [BitVec.getLsbD_of_ge d _ (by omega), BitVec.getLsbD_of_ge a _ (by omega)]
    by_cases h : i < 32
    · have : ¬ i < 29 := by omega
      have h6 : i - 28 ≠ 0 := by omega
      have h7 : i - 27 ≠ 0 := by omega
      simp [h, this, h6, h7]
    · rw [BitVec.getLsbD_of_ge k _ (by omega)]
      simp [h]

/-- A word is its format RW fields. -/
theorem word_fields (w : Word) (i : Nat) (hi : i < 32) : w.getLsbD i =
    if i < 8 then w.data.getLsbD i else if i < 24 then w.addr.getLsbD (i - 8) else if i < 27 then w.gap.getLsbD (i - 24)
    else if i = 27 then w.ib else if i = 28 then w.master.bit else w.kind.getLsbD (i - 29) := by
  have hm : w.master.bit = w.getLsbD 28 := by unfold Word.master; cases w.getLsbD 28 <;> rfl
  rw [hm]
  simp only [Word.data, Word.addr, Word.gap, Word.ib, Word.kind, BitVec.getLsbD_extractLsb']
  split_ifs with h1 h2 h3 h4 h5
  · simp [h1]
  · simp [show i - 8 < 16 by omega, show 8 + (i - 8) = i by omega]
  · simp [show i - 24 < 3 by omega, show 24 + (i - 24) = i by omega]
  · rw [h4]
  · rw [h5]
  · simp [show i - 29 < 3 by omega, show 29 + (i - 29) = i by omega]

theorem encodeRW_fields (w : Word) (h : w.gap = 0#3) : encodeRW w.kind w.master w.ib w.addr w.data = w := by
  apply BitVec.eq_of_getLsbD_eq
  intro i hi
  rw [getLsbD_encodeRW, word_fields w i hi, h]
  simp

@[simp] theorem kind_encodeRW : (encodeRW k m ib a d).kind = k := by
  apply BitVec.eq_of_getLsbD_eq
  intro i hi
  rw [Word.kind, BitVec.getLsbD_extractLsb', getLsbD_encodeRW]
  simp [hi, show ¬ 29 + i < 8 by omega, show ¬ 29 + i < 24 by omega, show ¬ 29 + i < 27 by omega, show ¬ 29 + i = 27 by omega, show ¬ 29 + i = 28 by omega]

@[simp] theorem gap_encodeRW : (encodeRW k m ib a d).gap = 0#3 := by
  apply BitVec.eq_of_getLsbD_eq
  intro i hi
  rw [Word.gap, BitVec.getLsbD_extractLsb', getLsbD_encodeRW]
  simp [hi, show ¬ 24 + i < 8 by omega, show ¬ 24 + i < 24 by omega, show 24 + i < 27 by omega]

@[simp] theorem addr_encodeRW : (encodeRW k m ib a d).addr = a := by
  apply BitVec.eq_of_getLsbD_eq
  intro i hi
  rw [Word.addr, BitVec.getLsbD_extractLsb', getLsbD_encodeRW]
  simp [hi, show 8 + i < 24 by omega]

@[simp] theorem data_encodeRW : (encodeRW k m ib a d).data = d := by
  apply BitVec.eq_of_getLsbD_eq
  intro i hi
  rw [Word.data, BitVec.getLsbD_extractLsb', getLsbD_encodeRW]
  simp [hi]

@[simp] theorem ib_encodeRW : (encodeRW k m ib a d).ib = ib := by
  rw [Word.ib, getLsbD_encodeRW]; simp

@[simp] theorem master_encodeRW : (encodeRW k m ib a d).master = m := by
  rw [Word.master, getLsbD_encodeRW]; cases m <;> simp [Master.bit]

/-! ### Formats S, N and Z -/

theorem getLsbD_encodeS (mask val : Byte) (i : Nat) : (encodeS mask val).getLsbD i =
    if i < 8 then val.getLsbD i else if i < 16 then mask.getLsbD (i - 8) else decide (i = 29 ∨ i = 30) := by
  simp only [encodeS, BitVec.getLsbD_or, getLsbD_fieldAt, Nat.sub_zero, Nat.not_lt_zero, decide_false,
    Bool.not_false, Bool.and_true]
  split_ifs with h1 h2
  · simp [show i < 32 by omega, show i < 29 by omega, h1]
  · rw [BitVec.getLsbD_of_ge val i (by omega)]
    simp [show i < 32 by omega, show i < 29 by omega, h1]
  · rw [BitVec.getLsbD_of_ge val i (by omega), BitVec.getLsbD_of_ge mask _ (by omega)]
    by_cases h : i < 29
    · simp [h]; omega
    · by_cases h' : i < 32
      · have : i = 29 ∨ i = 30 ∨ i = 31 := by omega
        rcases this with rfl | rfl | rfl <;> decide
      · simp [h']; omega

@[simp] theorem mask_encodeS (mask val : Byte) : (encodeS mask val).mask = mask := by
  apply BitVec.eq_of_getLsbD_eq
  intro i hi
  rw [Word.mask, BitVec.getLsbD_extractLsb', getLsbD_encodeS]
  simp [hi, show 8 + i < 16 by omega]

@[simp] theorem data_encodeS (mask val : Byte) : (encodeS mask val).data = val := by
  apply BitVec.eq_of_getLsbD_eq
  intro i hi
  rw [Word.data, BitVec.getLsbD_extractLsb', getLsbD_encodeS]
  simp [hi]

@[simp] theorem kind_encodeS (mask val : Byte) : (encodeS mask val).kind = 3#3 := by
  apply BitVec.eq_of_getLsbD_eq
  intro i hi
  rw [Word.kind, BitVec.getLsbD_extractLsb', getLsbD_encodeS]
  have : i = 0 ∨ i = 1 ∨ i = 2 := by omega
  rcases this with rfl | rfl | rfl <;> simp

@[simp] theorem zero_encodeS (mask val : Byte) : (encodeS mask val).extractLsb' 16 13 = 0#13 := by
  apply BitVec.eq_of_getLsbD_eq
  intro i hi
  rw [BitVec.getLsbD_extractLsb', getLsbD_encodeS]
  simp [show ¬ 16 + i < 8 by omega, show ¬ 16 + i < 16 by omega]
  omega

theorem encodeS_fields (w : Word) (hk : w.kind = 3#3) (hz : w.extractLsb' 16 13 = 0#13) : encodeS w.mask w.data = w := by
  apply BitVec.eq_of_getLsbD_eq
  intro i hi
  rw [getLsbD_encodeS]
  simp only [Word.data, Word.mask, BitVec.getLsbD_extractLsb']
  split_ifs with h1 h2
  · simp [h1]
  · simp [show i - 8 < 8 by omega, show 8 + (i - 8) = i by omega]
  · by_cases h : i < 29
    · have := congrArg (fun v => v.getLsbD (i - 16)) hz
      simp only [BitVec.getLsbD_extractLsb', show 16 + (i - 16) = i by omega, show i - 16 < 13 by omega] at this
      simp at this
      rw [this]; simp; omega
    · have := congrArg (fun v => v.getLsbD (i - 29)) hk
      simp only [Word.kind, BitVec.getLsbD_extractLsb', show 29 + (i - 29) = i by omega, show i - 29 < 3 by omega] at this
      simp only [decide_true, Bool.true_and] at this
      rw [this]
      have : i = 29 ∨ i = 30 ∨ i = 31 := by omega
      rcases this with rfl | rfl | rfl <;> decide

theorem encodeN_fields (w : Word) (hk : w.kind = 4#3) (hz : w.extractLsb' 1 28 = 0#28) : encodeN (w.getLsbD 0) = w := by
  apply BitVec.eq_of_getLsbD_eq
  intro i hi
  simp only [encodeN, BitVec.getLsbD_or, getLsbD_fieldAt, BitVec.getLsbD_ofBool, Nat.sub_zero]
  by_cases h0 : i = 0
  · subst h0; simp
  by_cases h : i < 29
  · have := congrArg (fun v => v.getLsbD (i - 1)) hz
    simp only [BitVec.getLsbD_extractLsb', show 1 + (i - 1) = i by omega, show i - 1 < 28 by omega] at this
    simp at this
    rw [this]; simp [h, h0]
  · have := congrArg (fun v => v.getLsbD (i - 29)) hk
    simp only [Word.kind, BitVec.getLsbD_extractLsb', show 29 + (i - 29) = i by omega, show i - 29 < 3 by omega] at this
    simp only [decide_true, Bool.true_and] at this
    rw [this]
    have : i = 29 ∨ i = 30 ∨ i = 31 := by omega
    rcases this with rfl | rfl | rfl <;> simp

theorem reset_fields (w : Word) (hk : w.kind = 5#3) (hz : w.extractLsb' 0 29 = 0#29) : fieldAt 5#3 29 = w := by
  apply BitVec.eq_of_getLsbD_eq
  intro i hi
  rw [getLsbD_fieldAt]
  by_cases h : i < 29
  · have := congrArg (fun v => v.getLsbD i) hz
    simp only [BitVec.getLsbD_extractLsb', Nat.zero_add, h] at this
    simp at this
    rw [this]; simp [h]
  · have := congrArg (fun v => v.getLsbD (i - 29)) hk
    simp only [Word.kind, BitVec.getLsbD_extractLsb', show 29 + (i - 29) = i by omega, show i - 29 < 3 by omega] at this
    simp only [decide_true, Bool.true_and] at this
    rw [this]; simp [h, hi]

/-! ### Addresses of the register window -/

variable {c : Config}

/-- The parameters of R7 meet the constraints, whatever the values R7 leaves to the platform. -/
theorem Config.standard_wf (ign : Bool) (rom ram : Image) : (Config.standard ign rom ram).Wf := by
  simp [Config.Wf, Config.SizesWf, Config.WindowsWf, Config.BlocksWf, Config.standard, Config.romFirst, Config.physBlocks]

/-- Where the windows lie, in numbers. -/
theorem Config.WindowsWf.bounds (h : c.WindowsWf) : c.ioBase.toNat ≤ c.regBase.toNat ∧
    c.regLimit.toNat ≤ c.ioLimit.toNat ∧ c.regLimit.toNat = c.regBase.toNat + 31 ∧ c.regBase.toNat % 32 = 0 :=
  ⟨BitVec.le_def.mp h.1, BitVec.le_def.mp h.2.1, h.2.2⟩

theorem inIoWindow_iff (c : Config) (a : Addr) : inIoWindow c a = true ↔ c.ioBase ≤ a ∧ a ≤ c.ioLimit := by
  rw [inIoWindow, Bool.and_eq_true, decide_eq_true_eq, decide_eq_true_eq]

theorem inIoWindow_eq_false_iff (c : Config) (a : Addr) : inIoWindow c a = false ↔ a < c.ioBase ∨ c.ioLimit < a := by
  rw [← Bool.not_eq_true, inIoWindow_iff]
  simp only [BitVec.le_def, BitVec.lt_def]
  omega

theorem inRegWindow_iff (c : Config) (a : Addr) : inRegWindow c a = true ↔ c.regBase ≤ a ∧ a ≤ c.regLimit := by
  rw [inRegWindow, Bool.and_eq_true, decide_eq_true_eq, decide_eq_true_eq]

theorem regOffset_toNat (a : Addr) : (regOffset a).toNat = a.toNat % 32 := by simp [regOffset, BitVec.extractLsb'_toNat]

/-- The address at an offset of the register window. -/
theorem regAddr_toNat (h : c.WindowsWf) (o : BitVec 5) : (regAddr c o).toNat = c.regBase.toNat + o.toNat := by
  have := h.bounds
  have := o.isLt
  have := c.regLimit.isLt
  simp [regAddr]
  omega

theorem inRegWindow_regAddr (h : c.WindowsWf) (o : BitVec 5) : inRegWindow c (regAddr c o) = true := by
  rw [inRegWindow_iff, BitVec.le_def, BitVec.le_def, regAddr_toNat h]
  have := h.bounds
  have := o.isLt
  omega

theorem regOffset_regAddr (h : c.WindowsWf) (o : BitVec 5) : regOffset (regAddr c o) = o := by
  apply BitVec.eq_of_toNat_eq
  rw [regOffset_toNat, regAddr_toNat h]
  have := h.bounds
  have := o.isLt
  omega

/-- An address of the register window is the one at its own offset. -/
theorem regAddr_regOffset (h : c.WindowsWf) {a : Addr} (ha : inRegWindow c a = true) : regAddr c (regOffset a) = a := by
  apply BitVec.eq_of_toNat_eq
  rw [regAddr_toNat h, regOffset_toNat]
  rw [inRegWindow_iff, BitVec.le_def, BitVec.le_def] at ha
  have := h.bounds
  omega

theorem pageAddr_pageIndex (h : c.WindowsWf) {a : Addr} (ha : inRegWindow c a = true) (h' : 16 ≤ (regOffset a).toNat) :
    pageAddr c (pageIndex a) = a := by
  have : 0x10#5 + (pageIndex a).zeroExtend 5 = regOffset a := by
    apply BitVec.eq_of_toNat_eq
    rw [regOffset_toNat] at h' ⊢
    simp [pageIndex, BitVec.extractLsb'_toNat]
    omega
  rw [pageAddr, this, regAddr_regOffset h ha]

theorem regOffset_pageAddr (h : c.WindowsWf) (n : Nib) : (regOffset (pageAddr c n)).toNat = 16 + n.toNat := by
  have := n.isLt
  simp [pageAddr, regOffset_regAddr h]
  omega

theorem pageIndex_pageAddr (h : c.WindowsWf) (n : Nib) : pageIndex (pageAddr c n) = n := by
  have ho := regOffset_pageAddr h n
  rw [regOffset_toNat] at ho
  have := n.isLt
  apply BitVec.eq_of_toNat_eq
  simp [pageIndex, BitVec.extractLsb'_toNat]
  omega

theorem inIoWindow_of_inRegWindow (h : c.WindowsWf) {a : Addr} (ha : inRegWindow c a = true) : inIoWindow c a = true := by
  rw [inRegWindow_iff] at ha
  exact (inIoWindow_iff c a).mpr ⟨BitVec.le_trans h.1 ha.1, BitVec.le_trans ha.2 h.2.1⟩

theorem inRegWindow_eq_false (h : c.WindowsWf) {a : Addr} (ha : inIoWindow c a = false) : inRegWindow c a = false := by
  cases h' : inRegWindow c a
  · rfl
  · rw [inIoWindow_of_inRegWindow h h'] at ha; cases ha

theorem isExternal_iff (c : Config) (a : Addr) :
    isExternal c a = true ↔ inIoWindow c a = true ∧ inRegWindow c a = false := by simp [isExternal]

/-- An unimplemented offset is one of 0x09 to 0x0F of the register window. -/
theorem isUnimplemented_iff (c : Config) (a : Addr) : isUnimplemented c a = true ↔
    inRegWindow c a = true ∧ 9 ≤ (regOffset a).toNat ∧ (regOffset a).toNat ≤ 15 := by
  rw [isUnimplemented, Bool.and_eq_true, Bool.and_eq_true, decide_eq_true_eq, decide_eq_true_eq, and_assoc]
  rfl

/-! ### What an encoded READ or WRITE decodes to -/

/-- A READ word decodes to its address's row. -/
theorem decode_encodeRead : decode c (encodeRead m ib a) = .ok (decodeRead c m ib a) := by simp [decode, encodeRead]

/-- A WRITE word decodes to its address's row. -/
theorem decode_encodeWrite : decode c (encodeWrite m ib a d) = .ok (decodeWrite c m ib a d) := by
  simp [decode, encodeWrite]

theorem decodeRead_register {a : Addr} (ha : inRegWindow c a = true) : decodeRead c m ib a = decodeRegRead m ib a := by
  simp [decodeRead, ha]

theorem decodeWrite_register {a : Addr} (ha : inRegWindow c a = true) :
    decodeWrite c m ib a d = decodeRegWrite m ib a d := by simp [decodeWrite, ha]

theorem decodeRead_memory (h : c.WindowsWf) {a : Addr} (ha : inIoWindow c a = false) :
    decodeRead c m ib a = .rdMem m ib a := by
  simp [decodeRead, inRegWindow_eq_false h ha, ha]

theorem decodeWrite_memory (h : c.WindowsWf) {a : Addr} (ha : inIoWindow c a = false) :
    decodeWrite c m ib a d = .wrMem m ib a d := by
  simp [decodeWrite, inRegWindow_eq_false h ha, ha]

theorem decodeRead_external {a : Addr} (ha : isExternal c a = true) : decodeRead c m ib a = .rdExtio m ib a := by
  rw [isExternal_iff] at ha
  simp [decodeRead, ha]

theorem decodeWrite_external {a : Addr} (ha : isExternal c a = true) : decodeWrite c m ib a d = .wrExtio m ib a d := by
  rw [isExternal_iff] at ha
  simp [decodeWrite, ha]

/-- The row of a READ of a register, from its offset. -/
theorem decodeRead_regAddr (h : c.WindowsWf) {o : BitVec 5} {i : Instr}
    (hi : ∀ a, regOffset a = o → decodeRegRead m ib a = i) : decodeRead c m ib (regAddr c o) = i := by
  rw [decodeRead_register _ _ (inRegWindow_regAddr h o), hi _ (regOffset_regAddr h o)]

/-- The row of a WRITE of a register, from its offset. -/
theorem decodeWrite_regAddr (h : c.WindowsWf) {o : BitVec 5} {i : Instr}
    (hi : ∀ a, regOffset a = o → decodeRegWrite m ib a d = i) : decodeWrite c m ib (regAddr c o) d = i := by
  rw [decodeWrite_register _ _ _ (inRegWindow_regAddr h o), hi _ (regOffset_regAddr h o)]

theorem decodeRead_unimplemented {a : Addr} (ha : isUnimplemented c a = true) :
    decodeRead c m ib a = .rdUnimpl m ib a := by
  obtain ⟨hr, h1, h2⟩ := (isUnimplemented_iff c a).mp ha
  rw [decodeRead_register _ _ hr, decodeRegRead]
  generalize (regOffset a).toNat = o at h1 h2
  interval_cases o <;> rfl

theorem decodeWrite_unimplemented {a : Addr} (ha : isUnimplemented c a = true) :
    decodeWrite c m ib a d = .wrUnimpl m ib a d := by
  obtain ⟨hr, h1, h2⟩ := (isUnimplemented_iff c a).mp ha
  rw [decodeWrite_register _ _ _ hr, decodeRegWrite]
  generalize (regOffset a).toNat = o at h1 h2
  interval_cases o <;> rfl

theorem decodeRead_pageAddr (h : c.WindowsWf) (n : Nib) : decodeRead c m ib (pageAddr c n) = .rdPage m ib n := by
  have ho := regOffset_pageAddr h n
  have hn := n.isLt
  have hp := pageIndex_pageAddr h n
  rw [decodeRead_register m ib (a := pageAddr c n) (inRegWindow_regAddr h _), decodeRegRead]
  generalize pageAddr c n = a at ho hp ⊢
  generalize (regOffset a).toNat = o at ho ⊢
  have h1 : 16 ≤ o := by omega
  have h2 : o ≤ 31 := by omega
  interval_cases o <;> simp [hp]

theorem decodeWrite_pageAddr (h : c.WindowsWf) (n : Nib) : decodeWrite c m ib (pageAddr c n) d = .wrPage m ib n d := by
  have ho := regOffset_pageAddr h n
  have hn := n.isLt
  have hp := pageIndex_pageAddr h n
  rw [decodeWrite_register m ib d (a := pageAddr c n) (inRegWindow_regAddr h _), decodeRegWrite]
  generalize pageAddr c n = a at ho hp ⊢
  generalize (regOffset a).toNat = o at ho ⊢
  have h1 : 16 ≤ o := by omega
  have h2 : o ≤ 31 := by omega
  interval_cases o <;> simp [hp]

end Sys2Proof
end

