-- ==== Sys2Proof/Laws/Memory.lean ====
section
/-! SUPPORT. The laws of RAM: a read after a write to the same offset gives the value written, a write leaves every other
offset alone, and every write keeps the canonical form and the bounds. -/

namespace Sys2Proof.Machine.Memory

variable {init : Image}

theorem read_put (m : List Host.Cell) (o : Nat) (v : Byte) (p : Nat) :
    read init (put m o v) p = if p = o then v else read init m p := by
  induction m with
  | nil => simp [put, read, eq_comm]
  | cons c rest ih =>
    obtain ⟨a, w⟩ := c
    simp only [put]
    split
    · simp [read, eq_comm]
    · split
      · subst_vars
        by_cases h : p = a <;> simp [read, h, eq_comm]
      · by_cases h : p = a
        · subst h
          have : p ≠ o := by omega
          simp [read, this]
        · simp [read, ih, Ne.symm h]

theorem read_drop (m : List Host.Cell) (o p : Nat) :
    read init (drop m o) p = if p = o then init.byte o else read init m p := by
  induction m with
  | nil => by_cases h : p = o <;> simp [drop, read, h]
  | cons c rest ih =>
    obtain ⟨a, w⟩ := c
    simp only [drop] at ih
    by_cases h : a = o
    · subst h
      by_cases h' : p = a <;> simp_all [drop, read, eq_comm]
    · by_cases h' : p = o
      · subst h'
        simp_all [drop, read]
      · simp_all [drop, read]

/-- Read after write. -/
theorem read_write (m : List Host.Cell) (o : Nat) (v : Byte) (p : Nat) :
    read init (write init m o v) p = if p = o then v else read init m p := by
  unfold write
  split
  · subst_vars; exact read_drop m o p
  · exact read_put m o v p

theorem wfFrom_mono {lo lo' : Nat} {m : List Host.Cell} (h : lo' ≤ lo) (hm : wfFrom init lo m = true) :
    wfFrom init lo' m = true := by
  cases m with
  | nil => rfl
  | cons c rest => obtain ⟨a, w⟩ := c; simp_all [wfFrom]; omega

theorem wfFrom_put {m : List Host.Cell} {lo o : Nat} {v : Byte} (hm : wfFrom init lo m = true) (hlo : lo ≤ o)
    (hv : v ≠ init.byte o) : wfFrom init lo (put m o v) = true := by
  induction m generalizing lo with
  | nil => simp [put, wfFrom, hlo, hv]
  | cons c rest ih =>
    obtain ⟨a, w⟩ := c
    simp only [wfFrom, Bool.and_eq_true, decide_eq_true_eq] at hm
    simp only [put]
    split
    · simp_all [wfFrom]
    · split
      · subst_vars; simp_all [wfFrom]
      · have := ih (lo := a + 1) hm.2 (by omega)
        simp_all [wfFrom]

theorem wfFrom_drop {m : List Host.Cell} {lo : Nat} (o : Nat) (hm : wfFrom init lo m = true) :
    wfFrom init lo (drop m o) = true := by
  induction m generalizing lo with
  | nil => rfl
  | cons c rest ih =>
    obtain ⟨a, w⟩ := c
    simp only [wfFrom, Bool.and_eq_true, decide_eq_true_eq] at hm
    have := ih hm.2
    simp only [drop] at this ⊢
    by_cases h : a = o
    · simpa [h] using wfFrom_mono (by omega) this
    · simp_all [wfFrom]

/-- Every write keeps the canonical form. -/
theorem wf_write {m : List Host.Cell} (o : Nat) (v : Byte) (hm : wf init m = true) : wf init (write init m o v) = true := by
  unfold write
  split
  · exact wfFrom_drop o hm
  · exact wfFrom_put hm (Nat.zero_le o) ‹_›

theorem mem_put {m : List Host.Cell} {o : Nat} {v : Byte} {c : Host.Cell} (h : c ∈ put m o v) : c = (o, v) ∨ c ∈ m := by
  induction m with
  | nil => simpa [put] using h
  | cons d rest ih =>
    obtain ⟨a, w⟩ := d
    simp only [put] at h
    split at h
    · simpa using h
    · split at h
      · simp at h; tauto
      · simp at h ⊢; tauto

/-- A write inside the array keeps every listed offset inside it. -/
theorem bounded_write {m : List Host.Cell} {o n : Nat} (v : Byte) (ho : o < n) (hm : ∀ c ∈ m, c.1 < n) :
    ∀ c ∈ write init m o v, c.1 < n := by
  intro c hc
  unfold write at hc
  split at hc
  · exact hm c (List.mem_filter.mp hc).1
  · rcases mem_put hc with rfl | h
    · exact ho
    · exact hm c h

/-- The memory of reset lists nothing, which is canonical. -/
@[simp] theorem wf_nil : wf init [] = true := rfl

end Sys2Proof.Machine.Memory
end

