-- ==== Sys2Proof/Laws/State.lean ====
section
/-! SUPPORT. One lemma per field per update of State: what each shared operation leaves unchanged, and, at the end, what
it writes. -/

namespace Sys2Proof.Machine

variable (s : State)

/-! ### emit -/

@[simp] theorem State.emit_cfg (e : Event) : (s.emit e).cfg = s.cfg := rfl
@[simp] theorem State.emit_ram (e : Event) : (s.emit e).ram = s.ram := rfl
@[simp] theorem State.emit_pt (e : Event) : (s.emit e).pt = s.pt := rfl
@[simp] theorem State.emit_taskReq (e : Event) : (s.emit e).taskReq = s.taskReq := rfl
@[simp] theorem State.emit_editTask (e : Event) : (s.emit e).editTask = s.editTask := rfl
@[simp] theorem State.emit_pgEn (e : Event) : (s.emit e).pgEn = s.pgEn := rfl
@[simp] theorem State.emit_romOvl (e : Event) : (s.emit e).romOvl = s.romOvl := rfl
@[simp] theorem State.emit_route (e : Event) : (s.emit e).route = s.route := rfl
@[simp] theorem State.emit_src (e : Event) : (s.emit e).src = s.src := rfl
@[simp] theorem State.emit_irqEn (e : Event) : (s.emit e).irqEn = s.irqEn := rfl
@[simp] theorem State.emit_firqEn (e : Event) : (s.emit e).firqEn = s.firqEn := rfl
@[simp] theorem State.emit_irqLine (e : Event) : (s.emit e).irqLine = s.irqLine := rfl
@[simp] theorem State.emit_firqLine (e : Event) : (s.emit e).firqLine = s.firqLine := rfl
@[simp] theorem State.emit_haltDma (e : Event) : (s.emit e).haltDma = s.haltDma := rfl
@[simp] theorem State.emit_haltMain (e : Event) : (s.emit e).haltMain = s.haltMain := rfl
@[simp] theorem State.emit_nmiCtl (e : Event) : (s.emit e).nmiCtl = s.nmiCtl := rfl
@[simp] theorem State.emit_nmiLast (e : Event) : (s.emit e).nmiLast = s.nmiLast := rfl
@[simp] theorem State.emit_firstNmiArmed (e : Event) : (s.emit e).firstNmiArmed = s.firstNmiArmed := rfl
@[simp] theorem State.emit_yieldTo (e : Event) : (s.emit e).yieldTo = s.yieldTo := rfl
@[simp] theorem State.emit_pending (e : Event) : (s.emit e).pending = s.pending := rfl
@[simp] theorem State.emit_drawIndex (e : Event) : (s.emit e).drawIndex = s.drawIndex := rfl
@[simp] theorem State.emit_outcome (e : Event) : (s.emit e).outcome = s.outcome := rfl

/-! ### reply -/

@[simp] theorem State.reply_cfg (m : Master) (v : Byte) : (s.reply m v).cfg = s.cfg := rfl
@[simp] theorem State.reply_ram (m : Master) (v : Byte) : (s.reply m v).ram = s.ram := rfl
@[simp] theorem State.reply_pt (m : Master) (v : Byte) : (s.reply m v).pt = s.pt := rfl
@[simp] theorem State.reply_taskReq (m : Master) (v : Byte) : (s.reply m v).taskReq = s.taskReq := rfl
@[simp] theorem State.reply_editTask (m : Master) (v : Byte) : (s.reply m v).editTask = s.editTask := rfl
@[simp] theorem State.reply_pgEn (m : Master) (v : Byte) : (s.reply m v).pgEn = s.pgEn := rfl
@[simp] theorem State.reply_romOvl (m : Master) (v : Byte) : (s.reply m v).romOvl = s.romOvl := rfl
@[simp] theorem State.reply_route (m : Master) (v : Byte) : (s.reply m v).route = s.route := rfl
@[simp] theorem State.reply_src (m : Master) (v : Byte) : (s.reply m v).src = s.src := rfl
@[simp] theorem State.reply_irqEn (m : Master) (v : Byte) : (s.reply m v).irqEn = s.irqEn := rfl
@[simp] theorem State.reply_firqEn (m : Master) (v : Byte) : (s.reply m v).firqEn = s.firqEn := rfl
@[simp] theorem State.reply_irqLine (m : Master) (v : Byte) : (s.reply m v).irqLine = s.irqLine := rfl
@[simp] theorem State.reply_firqLine (m : Master) (v : Byte) : (s.reply m v).firqLine = s.firqLine := rfl
@[simp] theorem State.reply_haltDma (m : Master) (v : Byte) : (s.reply m v).haltDma = s.haltDma := rfl
@[simp] theorem State.reply_haltMain (m : Master) (v : Byte) : (s.reply m v).haltMain = s.haltMain := rfl
@[simp] theorem State.reply_nmiCtl (m : Master) (v : Byte) : (s.reply m v).nmiCtl = s.nmiCtl := rfl
@[simp] theorem State.reply_nmiLast (m : Master) (v : Byte) : (s.reply m v).nmiLast = s.nmiLast := rfl
@[simp] theorem State.reply_firstNmiArmed (m : Master) (v : Byte) : (s.reply m v).firstNmiArmed = s.firstNmiArmed := rfl
@[simp] theorem State.reply_yieldTo (m : Master) (v : Byte) : (s.reply m v).yieldTo = s.yieldTo := rfl
@[simp] theorem State.reply_pending (m : Master) (v : Byte) : (s.reply m v).pending = s.pending := rfl
@[simp] theorem State.reply_drawIndex (m : Master) (v : Byte) : (s.reply m v).drawIndex = s.drawIndex := rfl
@[simp] theorem State.reply_outcome (m : Master) (v : Byte) : (s.reply m v).outcome = s.outcome := rfl

/-! ### withOutcome -/

@[simp] theorem State.withOutcome_cfg (r : TxOutcome) : (s.withOutcome r).cfg = s.cfg := rfl
@[simp] theorem State.withOutcome_ram (r : TxOutcome) : (s.withOutcome r).ram = s.ram := rfl
@[simp] theorem State.withOutcome_pt (r : TxOutcome) : (s.withOutcome r).pt = s.pt := rfl
@[simp] theorem State.withOutcome_taskReq (r : TxOutcome) : (s.withOutcome r).taskReq = s.taskReq := rfl
@[simp] theorem State.withOutcome_editTask (r : TxOutcome) : (s.withOutcome r).editTask = s.editTask := rfl
@[simp] theorem State.withOutcome_pgEn (r : TxOutcome) : (s.withOutcome r).pgEn = s.pgEn := rfl
@[simp] theorem State.withOutcome_romOvl (r : TxOutcome) : (s.withOutcome r).romOvl = s.romOvl := rfl
@[simp] theorem State.withOutcome_route (r : TxOutcome) : (s.withOutcome r).route = s.route := rfl
@[simp] theorem State.withOutcome_src (r : TxOutcome) : (s.withOutcome r).src = s.src := rfl
@[simp] theorem State.withOutcome_irqEn (r : TxOutcome) : (s.withOutcome r).irqEn = s.irqEn := rfl
@[simp] theorem State.withOutcome_firqEn (r : TxOutcome) : (s.withOutcome r).firqEn = s.firqEn := rfl
@[simp] theorem State.withOutcome_irqLine (r : TxOutcome) : (s.withOutcome r).irqLine = s.irqLine := rfl
@[simp] theorem State.withOutcome_firqLine (r : TxOutcome) : (s.withOutcome r).firqLine = s.firqLine := rfl
@[simp] theorem State.withOutcome_haltDma (r : TxOutcome) : (s.withOutcome r).haltDma = s.haltDma := rfl
@[simp] theorem State.withOutcome_haltMain (r : TxOutcome) : (s.withOutcome r).haltMain = s.haltMain := rfl
@[simp] theorem State.withOutcome_nmiCtl (r : TxOutcome) : (s.withOutcome r).nmiCtl = s.nmiCtl := rfl
@[simp] theorem State.withOutcome_nmiLast (r : TxOutcome) : (s.withOutcome r).nmiLast = s.nmiLast := rfl
@[simp] theorem State.withOutcome_firstNmiArmed (r : TxOutcome) : (s.withOutcome r).firstNmiArmed = s.firstNmiArmed := rfl
@[simp] theorem State.withOutcome_yieldTo (r : TxOutcome) : (s.withOutcome r).yieldTo = s.yieldTo := rfl
@[simp] theorem State.withOutcome_history (r : TxOutcome) : (s.withOutcome r).history = s.history := rfl
@[simp] theorem State.withOutcome_pending (r : TxOutcome) : (s.withOutcome r).pending = s.pending := rfl
@[simp] theorem State.withOutcome_drawIndex (r : TxOutcome) : (s.withOutcome r).drawIndex = s.drawIndex := rfl

/-! ### accepted -/

@[simp] theorem State.accepted_cfg : (s.accepted).cfg = s.cfg := rfl
@[simp] theorem State.accepted_ram : (s.accepted).ram = s.ram := rfl
@[simp] theorem State.accepted_pt : (s.accepted).pt = s.pt := rfl
@[simp] theorem State.accepted_taskReq : (s.accepted).taskReq = s.taskReq := rfl
@[simp] theorem State.accepted_editTask : (s.accepted).editTask = s.editTask := rfl
@[simp] theorem State.accepted_pgEn : (s.accepted).pgEn = s.pgEn := rfl
@[simp] theorem State.accepted_romOvl : (s.accepted).romOvl = s.romOvl := rfl
@[simp] theorem State.accepted_route : (s.accepted).route = s.route := rfl
@[simp] theorem State.accepted_src : (s.accepted).src = s.src := rfl
@[simp] theorem State.accepted_irqEn : (s.accepted).irqEn = s.irqEn := rfl
@[simp] theorem State.accepted_firqEn : (s.accepted).firqEn = s.firqEn := rfl
@[simp] theorem State.accepted_irqLine : (s.accepted).irqLine = s.irqLine := rfl
@[simp] theorem State.accepted_firqLine : (s.accepted).firqLine = s.firqLine := rfl
@[simp] theorem State.accepted_haltDma : (s.accepted).haltDma = s.haltDma := rfl
@[simp] theorem State.accepted_haltMain : (s.accepted).haltMain = s.haltMain := rfl
@[simp] theorem State.accepted_nmiCtl : (s.accepted).nmiCtl = s.nmiCtl := rfl
@[simp] theorem State.accepted_nmiLast : (s.accepted).nmiLast = s.nmiLast := rfl
@[simp] theorem State.accepted_firstNmiArmed : (s.accepted).firstNmiArmed = s.firstNmiArmed := rfl
@[simp] theorem State.accepted_yieldTo : (s.accepted).yieldTo = s.yieldTo := rfl
@[simp] theorem State.accepted_history : (s.accepted).history = s.history := rfl
@[simp] theorem State.accepted_pending : (s.accepted).pending = s.pending := rfl
@[simp] theorem State.accepted_drawIndex : (s.accepted).drawIndex = s.drawIndex := rfl

/-! ### withRamByte -/

@[simp] theorem State.withRamByte_cfg (o : Nat) (v : Byte) : (s.withRamByte o v).cfg = s.cfg := rfl
@[simp] theorem State.withRamByte_pt (o : Nat) (v : Byte) : (s.withRamByte o v).pt = s.pt := rfl
@[simp] theorem State.withRamByte_taskReq (o : Nat) (v : Byte) : (s.withRamByte o v).taskReq = s.taskReq := rfl
@[simp] theorem State.withRamByte_editTask (o : Nat) (v : Byte) : (s.withRamByte o v).editTask = s.editTask := rfl
@[simp] theorem State.withRamByte_pgEn (o : Nat) (v : Byte) : (s.withRamByte o v).pgEn = s.pgEn := rfl
@[simp] theorem State.withRamByte_romOvl (o : Nat) (v : Byte) : (s.withRamByte o v).romOvl = s.romOvl := rfl
@[simp] theorem State.withRamByte_route (o : Nat) (v : Byte) : (s.withRamByte o v).route = s.route := rfl
@[simp] theorem State.withRamByte_src (o : Nat) (v : Byte) : (s.withRamByte o v).src = s.src := rfl
@[simp] theorem State.withRamByte_irqEn (o : Nat) (v : Byte) : (s.withRamByte o v).irqEn = s.irqEn := rfl
@[simp] theorem State.withRamByte_firqEn (o : Nat) (v : Byte) : (s.withRamByte o v).firqEn = s.firqEn := rfl
@[simp] theorem State.withRamByte_irqLine (o : Nat) (v : Byte) : (s.withRamByte o v).irqLine = s.irqLine := rfl
@[simp] theorem State.withRamByte_firqLine (o : Nat) (v : Byte) : (s.withRamByte o v).firqLine = s.firqLine := rfl
@[simp] theorem State.withRamByte_haltDma (o : Nat) (v : Byte) : (s.withRamByte o v).haltDma = s.haltDma := rfl
@[simp] theorem State.withRamByte_haltMain (o : Nat) (v : Byte) : (s.withRamByte o v).haltMain = s.haltMain := rfl
@[simp] theorem State.withRamByte_nmiCtl (o : Nat) (v : Byte) : (s.withRamByte o v).nmiCtl = s.nmiCtl := rfl
@[simp] theorem State.withRamByte_nmiLast (o : Nat) (v : Byte) : (s.withRamByte o v).nmiLast = s.nmiLast := rfl
@[simp] theorem State.withRamByte_firstNmiArmed (o : Nat) (v : Byte) : (s.withRamByte o v).firstNmiArmed = s.firstNmiArmed := rfl
@[simp] theorem State.withRamByte_yieldTo (o : Nat) (v : Byte) : (s.withRamByte o v).yieldTo = s.yieldTo := rfl
@[simp] theorem State.withRamByte_history (o : Nat) (v : Byte) : (s.withRamByte o v).history = s.history := rfl
@[simp] theorem State.withRamByte_pending (o : Nat) (v : Byte) : (s.withRamByte o v).pending = s.pending := rfl
@[simp] theorem State.withRamByte_drawIndex (o : Nat) (v : Byte) : (s.withRamByte o v).drawIndex = s.drawIndex := rfl
@[simp] theorem State.withRamByte_outcome (o : Nat) (v : Byte) : (s.withRamByte o v).outcome = s.outcome := rfl

/-! ### sync -/

@[simp] theorem State.sync_cfg (lo hi : Nib) : (s.sync lo hi).cfg = s.cfg := rfl
@[simp] theorem State.sync_ram (lo hi : Nib) : (s.sync lo hi).ram = s.ram := rfl
@[simp] theorem State.sync_pt (lo hi : Nib) : (s.sync lo hi).pt = s.pt := rfl
@[simp] theorem State.sync_taskReq (lo hi : Nib) : (s.sync lo hi).taskReq = s.taskReq := rfl
@[simp] theorem State.sync_editTask (lo hi : Nib) : (s.sync lo hi).editTask = s.editTask := rfl
@[simp] theorem State.sync_pgEn (lo hi : Nib) : (s.sync lo hi).pgEn = s.pgEn := rfl
@[simp] theorem State.sync_romOvl (lo hi : Nib) : (s.sync lo hi).romOvl = s.romOvl := rfl
@[simp] theorem State.sync_src (lo hi : Nib) : (s.sync lo hi).src = s.src := rfl
@[simp] theorem State.sync_irqEn (lo hi : Nib) : (s.sync lo hi).irqEn = s.irqEn := rfl
@[simp] theorem State.sync_firqEn (lo hi : Nib) : (s.sync lo hi).firqEn = s.firqEn := rfl
@[simp] theorem State.sync_irqLine (lo hi : Nib) : (s.sync lo hi).irqLine = s.irqLine := rfl
@[simp] theorem State.sync_firqLine (lo hi : Nib) : (s.sync lo hi).firqLine = s.firqLine := rfl
@[simp] theorem State.sync_haltDma (lo hi : Nib) : (s.sync lo hi).haltDma = s.haltDma := rfl
@[simp] theorem State.sync_haltMain (lo hi : Nib) : (s.sync lo hi).haltMain = s.haltMain := rfl
@[simp] theorem State.sync_nmiCtl (lo hi : Nib) : (s.sync lo hi).nmiCtl = s.nmiCtl := rfl
@[simp] theorem State.sync_nmiLast (lo hi : Nib) : (s.sync lo hi).nmiLast = s.nmiLast := rfl
@[simp] theorem State.sync_firstNmiArmed (lo hi : Nib) : (s.sync lo hi).firstNmiArmed = s.firstNmiArmed := rfl
@[simp] theorem State.sync_yieldTo (lo hi : Nib) : (s.sync lo hi).yieldTo = s.yieldTo := rfl
@[simp] theorem State.sync_history (lo hi : Nib) : (s.sync lo hi).history = s.history := rfl
@[simp] theorem State.sync_pending (lo hi : Nib) : (s.sync lo hi).pending = s.pending := rfl
@[simp] theorem State.sync_drawIndex (lo hi : Nib) : (s.sync lo hi).drawIndex = s.drawIndex := rfl
@[simp] theorem State.sync_outcome (lo hi : Nib) : (s.sync lo hi).outcome = s.outcome := rfl

/-! ### drawn -/

@[simp] theorem State.drawn_cfg : (s.drawn).cfg = s.cfg := rfl
@[simp] theorem State.drawn_ram : (s.drawn).ram = s.ram := rfl
@[simp] theorem State.drawn_pt : (s.drawn).pt = s.pt := rfl
@[simp] theorem State.drawn_taskReq : (s.drawn).taskReq = s.taskReq := rfl
@[simp] theorem State.drawn_editTask : (s.drawn).editTask = s.editTask := rfl
@[simp] theorem State.drawn_pgEn : (s.drawn).pgEn = s.pgEn := rfl
@[simp] theorem State.drawn_romOvl : (s.drawn).romOvl = s.romOvl := rfl
@[simp] theorem State.drawn_route : (s.drawn).route = s.route := rfl
@[simp] theorem State.drawn_src : (s.drawn).src = s.src := rfl
@[simp] theorem State.drawn_irqEn : (s.drawn).irqEn = s.irqEn := rfl
@[simp] theorem State.drawn_firqEn : (s.drawn).firqEn = s.firqEn := rfl
@[simp] theorem State.drawn_irqLine : (s.drawn).irqLine = s.irqLine := rfl
@[simp] theorem State.drawn_firqLine : (s.drawn).firqLine = s.firqLine := rfl
@[simp] theorem State.drawn_haltDma : (s.drawn).haltDma = s.haltDma := rfl
@[simp] theorem State.drawn_haltMain : (s.drawn).haltMain = s.haltMain := rfl
@[simp] theorem State.drawn_nmiCtl : (s.drawn).nmiCtl = s.nmiCtl := rfl
@[simp] theorem State.drawn_nmiLast : (s.drawn).nmiLast = s.nmiLast := rfl
@[simp] theorem State.drawn_firstNmiArmed : (s.drawn).firstNmiArmed = s.firstNmiArmed := rfl
@[simp] theorem State.drawn_yieldTo : (s.drawn).yieldTo = s.yieldTo := rfl
@[simp] theorem State.drawn_history : (s.drawn).history = s.history := rfl
@[simp] theorem State.drawn_pending : (s.drawn).pending = s.pending := rfl
@[simp] theorem State.drawn_outcome : (s.drawn).outcome = s.outcome := rfl

/-! ### withPage -/

@[simp] theorem State.withPage_cfg (n : Nib) (d : Byte) : (s.withPage n d).cfg = s.cfg := rfl
@[simp] theorem State.withPage_ram (n : Nib) (d : Byte) : (s.withPage n d).ram = s.ram := rfl
@[simp] theorem State.withPage_taskReq (n : Nib) (d : Byte) : (s.withPage n d).taskReq = s.taskReq := rfl
@[simp] theorem State.withPage_editTask (n : Nib) (d : Byte) : (s.withPage n d).editTask = s.editTask := rfl
@[simp] theorem State.withPage_pgEn (n : Nib) (d : Byte) : (s.withPage n d).pgEn = s.pgEn := rfl
@[simp] theorem State.withPage_romOvl (n : Nib) (d : Byte) : (s.withPage n d).romOvl = s.romOvl := rfl
@[simp] theorem State.withPage_route (n : Nib) (d : Byte) : (s.withPage n d).route = s.route := rfl
@[simp] theorem State.withPage_src (n : Nib) (d : Byte) : (s.withPage n d).src = s.src := rfl
@[simp] theorem State.withPage_irqEn (n : Nib) (d : Byte) : (s.withPage n d).irqEn = s.irqEn := rfl
@[simp] theorem State.withPage_firqEn (n : Nib) (d : Byte) : (s.withPage n d).firqEn = s.firqEn := rfl
@[simp] theorem State.withPage_irqLine (n : Nib) (d : Byte) : (s.withPage n d).irqLine = s.irqLine := rfl
@[simp] theorem State.withPage_firqLine (n : Nib) (d : Byte) : (s.withPage n d).firqLine = s.firqLine := rfl
@[simp] theorem State.withPage_haltDma (n : Nib) (d : Byte) : (s.withPage n d).haltDma = s.haltDma := rfl
@[simp] theorem State.withPage_haltMain (n : Nib) (d : Byte) : (s.withPage n d).haltMain = s.haltMain := rfl
@[simp] theorem State.withPage_nmiCtl (n : Nib) (d : Byte) : (s.withPage n d).nmiCtl = s.nmiCtl := rfl
@[simp] theorem State.withPage_nmiLast (n : Nib) (d : Byte) : (s.withPage n d).nmiLast = s.nmiLast := rfl
@[simp] theorem State.withPage_firstNmiArmed (n : Nib) (d : Byte) : (s.withPage n d).firstNmiArmed = s.firstNmiArmed := rfl
@[simp] theorem State.withPage_yieldTo (n : Nib) (d : Byte) : (s.withPage n d).yieldTo = s.yieldTo := rfl
@[simp] theorem State.withPage_history (n : Nib) (d : Byte) : (s.withPage n d).history = s.history := rfl
@[simp] theorem State.withPage_pending (n : Nib) (d : Byte) : (s.withPage n d).pending = s.pending := rfl
@[simp] theorem State.withPage_drawIndex (n : Nib) (d : Byte) : (s.withPage n d).drawIndex = s.drawIndex := rfl
@[simp] theorem State.withPage_outcome (n : Nib) (d : Byte) : (s.withPage n d).outcome = s.outcome := rfl

/-! ### withHalt -/

@[simp] theorem State.withHalt_cfg (c : Master) (v : Bool) : (s.withHalt c v).cfg = s.cfg := by cases c <;> rfl
@[simp] theorem State.withHalt_ram (c : Master) (v : Bool) : (s.withHalt c v).ram = s.ram := by cases c <;> rfl
@[simp] theorem State.withHalt_pt (c : Master) (v : Bool) : (s.withHalt c v).pt = s.pt := by cases c <;> rfl
@[simp] theorem State.withHalt_taskReq (c : Master) (v : Bool) : (s.withHalt c v).taskReq = s.taskReq := by cases c <;> rfl
@[simp] theorem State.withHalt_editTask (c : Master) (v : Bool) : (s.withHalt c v).editTask = s.editTask := by cases c <;> rfl
@[simp] theorem State.withHalt_pgEn (c : Master) (v : Bool) : (s.withHalt c v).pgEn = s.pgEn := by cases c <;> rfl
@[simp] theorem State.withHalt_romOvl (c : Master) (v : Bool) : (s.withHalt c v).romOvl = s.romOvl := by cases c <;> rfl
@[simp] theorem State.withHalt_route (c : Master) (v : Bool) : (s.withHalt c v).route = s.route := by cases c <;> rfl
@[simp] theorem State.withHalt_src (c : Master) (v : Bool) : (s.withHalt c v).src = s.src := by cases c <;> rfl
@[simp] theorem State.withHalt_irqEn (c : Master) (v : Bool) : (s.withHalt c v).irqEn = s.irqEn := by cases c <;> rfl
@[simp] theorem State.withHalt_firqEn (c : Master) (v : Bool) : (s.withHalt c v).firqEn = s.firqEn := by cases c <;> rfl
@[simp] theorem State.withHalt_irqLine (c : Master) (v : Bool) : (s.withHalt c v).irqLine = s.irqLine := by cases c <;> rfl
@[simp] theorem State.withHalt_firqLine (c : Master) (v : Bool) : (s.withHalt c v).firqLine = s.firqLine := by cases c <;> rfl
@[simp] theorem State.withHalt_nmiCtl (c : Master) (v : Bool) : (s.withHalt c v).nmiCtl = s.nmiCtl := by cases c <;> rfl
@[simp] theorem State.withHalt_nmiLast (c : Master) (v : Bool) : (s.withHalt c v).nmiLast = s.nmiLast := by cases c <;> rfl
@[simp] theorem State.withHalt_firstNmiArmed (c : Master) (v : Bool) : (s.withHalt c v).firstNmiArmed = s.firstNmiArmed := by cases c <;> rfl
@[simp] theorem State.withHalt_yieldTo (c : Master) (v : Bool) : (s.withHalt c v).yieldTo = s.yieldTo := by cases c <;> rfl
@[simp] theorem State.withHalt_history (c : Master) (v : Bool) : (s.withHalt c v).history = s.history := by cases c <;> rfl
@[simp] theorem State.withHalt_pending (c : Master) (v : Bool) : (s.withHalt c v).pending = s.pending := by cases c <;> rfl
@[simp] theorem State.withHalt_drawIndex (c : Master) (v : Bool) : (s.withHalt c v).drawIndex = s.drawIndex := by cases c <;> rfl
@[simp] theorem State.withHalt_outcome (c : Master) (v : Bool) : (s.withHalt c v).outcome = s.outcome := by cases c <;> rfl

/-! ### recalcIrq -/

@[simp] theorem State.recalcIrq_cfg : (s.recalcIrq).cfg = s.cfg := by unfold State.recalcIrq; dsimp only; split <;> rfl
@[simp] theorem State.recalcIrq_ram : (s.recalcIrq).ram = s.ram := by unfold State.recalcIrq; dsimp only; split <;> rfl
@[simp] theorem State.recalcIrq_pt : (s.recalcIrq).pt = s.pt := by unfold State.recalcIrq; dsimp only; split <;> rfl
@[simp] theorem State.recalcIrq_taskReq : (s.recalcIrq).taskReq = s.taskReq := by unfold State.recalcIrq; dsimp only; split <;> rfl
@[simp] theorem State.recalcIrq_editTask : (s.recalcIrq).editTask = s.editTask := by unfold State.recalcIrq; dsimp only; split <;> rfl
@[simp] theorem State.recalcIrq_pgEn : (s.recalcIrq).pgEn = s.pgEn := by unfold State.recalcIrq; dsimp only; split <;> rfl
@[simp] theorem State.recalcIrq_romOvl : (s.recalcIrq).romOvl = s.romOvl := by unfold State.recalcIrq; dsimp only; split <;> rfl
@[simp] theorem State.recalcIrq_route : (s.recalcIrq).route = s.route := by unfold State.recalcIrq; dsimp only; split <;> rfl
@[simp] theorem State.recalcIrq_src : (s.recalcIrq).src = s.src := by unfold State.recalcIrq; dsimp only; split <;> rfl
@[simp] theorem State.recalcIrq_irqEn : (s.recalcIrq).irqEn = s.irqEn := by unfold State.recalcIrq; dsimp only; split <;> rfl
@[simp] theorem State.recalcIrq_firqEn : (s.recalcIrq).firqEn = s.firqEn := by unfold State.recalcIrq; dsimp only; split <;> rfl
@[simp] theorem State.recalcIrq_firqLine : (s.recalcIrq).firqLine = s.firqLine := by unfold State.recalcIrq; dsimp only; split <;> rfl
@[simp] theorem State.recalcIrq_haltDma : (s.recalcIrq).haltDma = s.haltDma := by unfold State.recalcIrq; dsimp only; split <;> rfl
@[simp] theorem State.recalcIrq_haltMain : (s.recalcIrq).haltMain = s.haltMain := by unfold State.recalcIrq; dsimp only; split <;> rfl
@[simp] theorem State.recalcIrq_nmiCtl : (s.recalcIrq).nmiCtl = s.nmiCtl := by unfold State.recalcIrq; dsimp only; split <;> rfl
@[simp] theorem State.recalcIrq_nmiLast : (s.recalcIrq).nmiLast = s.nmiLast := by unfold State.recalcIrq; dsimp only; split <;> rfl
@[simp] theorem State.recalcIrq_firstNmiArmed : (s.recalcIrq).firstNmiArmed = s.firstNmiArmed := by unfold State.recalcIrq; dsimp only; split <;> rfl
@[simp] theorem State.recalcIrq_yieldTo : (s.recalcIrq).yieldTo = s.yieldTo := by unfold State.recalcIrq; dsimp only; split <;> rfl
@[simp] theorem State.recalcIrq_pending : (s.recalcIrq).pending = s.pending := by unfold State.recalcIrq; dsimp only; split <;> rfl
@[simp] theorem State.recalcIrq_drawIndex : (s.recalcIrq).drawIndex = s.drawIndex := by unfold State.recalcIrq; dsimp only; split <;> rfl
@[simp] theorem State.recalcIrq_outcome : (s.recalcIrq).outcome = s.outcome := by unfold State.recalcIrq; dsimp only; split <;> rfl

/-! ### recalcFirq -/

@[simp] theorem State.recalcFirq_cfg : (s.recalcFirq).cfg = s.cfg := by unfold State.recalcFirq; dsimp only; split <;> rfl
@[simp] theorem State.recalcFirq_ram : (s.recalcFirq).ram = s.ram := by unfold State.recalcFirq; dsimp only; split <;> rfl
@[simp] theorem State.recalcFirq_pt : (s.recalcFirq).pt = s.pt := by unfold State.recalcFirq; dsimp only; split <;> rfl
@[simp] theorem State.recalcFirq_taskReq : (s.recalcFirq).taskReq = s.taskReq := by unfold State.recalcFirq; dsimp only; split <;> rfl
@[simp] theorem State.recalcFirq_editTask : (s.recalcFirq).editTask = s.editTask := by unfold State.recalcFirq; dsimp only; split <;> rfl
@[simp] theorem State.recalcFirq_pgEn : (s.recalcFirq).pgEn = s.pgEn := by unfold State.recalcFirq; dsimp only; split <;> rfl
@[simp] theorem State.recalcFirq_romOvl : (s.recalcFirq).romOvl = s.romOvl := by unfold State.recalcFirq; dsimp only; split <;> rfl
@[simp] theorem State.recalcFirq_route : (s.recalcFirq).route = s.route := by unfold State.recalcFirq; dsimp only; split <;> rfl
@[simp] theorem State.recalcFirq_src : (s.recalcFirq).src = s.src := by unfold State.recalcFirq; dsimp only; split <;> rfl
@[simp] theorem State.recalcFirq_irqEn : (s.recalcFirq).irqEn = s.irqEn := by unfold State.recalcFirq; dsimp only; split <;> rfl
@[simp] theorem State.recalcFirq_firqEn : (s.recalcFirq).firqEn = s.firqEn := by unfold State.recalcFirq; dsimp only; split <;> rfl
@[simp] theorem State.recalcFirq_irqLine : (s.recalcFirq).irqLine = s.irqLine := by unfold State.recalcFirq; dsimp only; split <;> rfl
@[simp] theorem State.recalcFirq_haltDma : (s.recalcFirq).haltDma = s.haltDma := by unfold State.recalcFirq; dsimp only; split <;> rfl
@[simp] theorem State.recalcFirq_haltMain : (s.recalcFirq).haltMain = s.haltMain := by unfold State.recalcFirq; dsimp only; split <;> rfl
@[simp] theorem State.recalcFirq_nmiCtl : (s.recalcFirq).nmiCtl = s.nmiCtl := by unfold State.recalcFirq; dsimp only; split <;> rfl
@[simp] theorem State.recalcFirq_nmiLast : (s.recalcFirq).nmiLast = s.nmiLast := by unfold State.recalcFirq; dsimp only; split <;> rfl
@[simp] theorem State.recalcFirq_firstNmiArmed : (s.recalcFirq).firstNmiArmed = s.firstNmiArmed := by unfold State.recalcFirq; dsimp only; split <;> rfl
@[simp] theorem State.recalcFirq_yieldTo : (s.recalcFirq).yieldTo = s.yieldTo := by unfold State.recalcFirq; dsimp only; split <;> rfl
@[simp] theorem State.recalcFirq_pending : (s.recalcFirq).pending = s.pending := by unfold State.recalcFirq; dsimp only; split <;> rfl
@[simp] theorem State.recalcFirq_drawIndex : (s.recalcFirq).drawIndex = s.drawIndex := by unfold State.recalcFirq; dsimp only; split <;> rfl
@[simp] theorem State.recalcFirq_outcome : (s.recalcFirq).outcome = s.outcome := by unfold State.recalcFirq; dsimp only; split <;> rfl

/-! ### recalc -/

@[simp] theorem State.recalc_cfg : (s.recalc).cfg = s.cfg := by simp [State.recalc]
@[simp] theorem State.recalc_ram : (s.recalc).ram = s.ram := by simp [State.recalc]
@[simp] theorem State.recalc_pt : (s.recalc).pt = s.pt := by simp [State.recalc]
@[simp] theorem State.recalc_taskReq : (s.recalc).taskReq = s.taskReq := by simp [State.recalc]
@[simp] theorem State.recalc_editTask : (s.recalc).editTask = s.editTask := by simp [State.recalc]
@[simp] theorem State.recalc_pgEn : (s.recalc).pgEn = s.pgEn := by simp [State.recalc]
@[simp] theorem State.recalc_romOvl : (s.recalc).romOvl = s.romOvl := by simp [State.recalc]
@[simp] theorem State.recalc_route : (s.recalc).route = s.route := by simp [State.recalc]
@[simp] theorem State.recalc_src : (s.recalc).src = s.src := by simp [State.recalc]
@[simp] theorem State.recalc_irqEn : (s.recalc).irqEn = s.irqEn := by simp [State.recalc]
@[simp] theorem State.recalc_firqEn : (s.recalc).firqEn = s.firqEn := by simp [State.recalc]
@[simp] theorem State.recalc_haltDma : (s.recalc).haltDma = s.haltDma := by simp [State.recalc]
@[simp] theorem State.recalc_haltMain : (s.recalc).haltMain = s.haltMain := by simp [State.recalc]
@[simp] theorem State.recalc_nmiCtl : (s.recalc).nmiCtl = s.nmiCtl := by simp [State.recalc]
@[simp] theorem State.recalc_nmiLast : (s.recalc).nmiLast = s.nmiLast := by simp [State.recalc]
@[simp] theorem State.recalc_firstNmiArmed : (s.recalc).firstNmiArmed = s.firstNmiArmed := by simp [State.recalc]
@[simp] theorem State.recalc_yieldTo : (s.recalc).yieldTo = s.yieldTo := by simp [State.recalc]
@[simp] theorem State.recalc_pending : (s.recalc).pending = s.pending := by simp [State.recalc]
@[simp] theorem State.recalc_drawIndex : (s.recalc).drawIndex = s.drawIndex := by simp [State.recalc]
@[simp] theorem State.recalc_outcome : (s.recalc).outcome = s.outcome := by simp [State.recalc]

/-! ### recalcNmi -/

@[simp] theorem State.recalcNmi_cfg (v : Bool) : (s.recalcNmi v).cfg = s.cfg := by unfold State.recalcNmi; dsimp only; split <;> (try split) <;> rfl
@[simp] theorem State.recalcNmi_ram (v : Bool) : (s.recalcNmi v).ram = s.ram := by unfold State.recalcNmi; dsimp only; split <;> (try split) <;> rfl
@[simp] theorem State.recalcNmi_pt (v : Bool) : (s.recalcNmi v).pt = s.pt := by unfold State.recalcNmi; dsimp only; split <;> (try split) <;> rfl
@[simp] theorem State.recalcNmi_taskReq (v : Bool) : (s.recalcNmi v).taskReq = s.taskReq := by unfold State.recalcNmi; dsimp only; split <;> (try split) <;> rfl
@[simp] theorem State.recalcNmi_editTask (v : Bool) : (s.recalcNmi v).editTask = s.editTask := by unfold State.recalcNmi; dsimp only; split <;> (try split) <;> rfl
@[simp] theorem State.recalcNmi_pgEn (v : Bool) : (s.recalcNmi v).pgEn = s.pgEn := by unfold State.recalcNmi; dsimp only; split <;> (try split) <;> rfl
@[simp] theorem State.recalcNmi_romOvl (v : Bool) : (s.recalcNmi v).romOvl = s.romOvl := by unfold State.recalcNmi; dsimp only; split <;> (try split) <;> rfl
@[simp] theorem State.recalcNmi_route (v : Bool) : (s.recalcNmi v).route = s.route := by unfold State.recalcNmi; dsimp only; split <;> (try split) <;> rfl
@[simp] theorem State.recalcNmi_src (v : Bool) : (s.recalcNmi v).src = s.src := by unfold State.recalcNmi; dsimp only; split <;> (try split) <;> rfl
@[simp] theorem State.recalcNmi_irqEn (v : Bool) : (s.recalcNmi v).irqEn = s.irqEn := by unfold State.recalcNmi; dsimp only; split <;> (try split) <;> rfl
@[simp] theorem State.recalcNmi_firqEn (v : Bool) : (s.recalcNmi v).firqEn = s.firqEn := by unfold State.recalcNmi; dsimp only; split <;> (try split) <;> rfl
@[simp] theorem State.recalcNmi_irqLine (v : Bool) : (s.recalcNmi v).irqLine = s.irqLine := by unfold State.recalcNmi; dsimp only; split <;> (try split) <;> rfl
@[simp] theorem State.recalcNmi_firqLine (v : Bool) : (s.recalcNmi v).firqLine = s.firqLine := by unfold State.recalcNmi; dsimp only; split <;> (try split) <;> rfl
@[simp] theorem State.recalcNmi_haltDma (v : Bool) : (s.recalcNmi v).haltDma = s.haltDma := by unfold State.recalcNmi; dsimp only; split <;> (try split) <;> rfl
@[simp] theorem State.recalcNmi_haltMain (v : Bool) : (s.recalcNmi v).haltMain = s.haltMain := by unfold State.recalcNmi; dsimp only; split <;> (try split) <;> rfl
@[simp] theorem State.recalcNmi_nmiCtl (v : Bool) : (s.recalcNmi v).nmiCtl = s.nmiCtl := by unfold State.recalcNmi; dsimp only; split <;> (try split) <;> rfl
@[simp] theorem State.recalcNmi_yieldTo (v : Bool) : (s.recalcNmi v).yieldTo = s.yieldTo := by unfold State.recalcNmi; dsimp only; split <;> (try split) <;> rfl
@[simp] theorem State.recalcNmi_pending (v : Bool) : (s.recalcNmi v).pending = s.pending := by unfold State.recalcNmi; dsimp only; split <;> (try split) <;> rfl
@[simp] theorem State.recalcNmi_drawIndex (v : Bool) : (s.recalcNmi v).drawIndex = s.drawIndex := by unfold State.recalcNmi; dsimp only; split <;> (try split) <;> rfl
@[simp] theorem State.recalcNmi_outcome (v : Bool) : (s.recalcNmi v).outcome = s.outcome := by unfold State.recalcNmi; dsimp only; split <;> (try split) <;> rfl

/-! ### setHalt -/

@[simp] theorem State.setHalt_cfg (c : Master) (v : Bool) (w : Master) : (s.setHalt c v w).cfg = s.cfg := by unfold State.setHalt; dsimp only; split <;> (try split) <;> (try split) <;> simp
@[simp] theorem State.setHalt_ram (c : Master) (v : Bool) (w : Master) : (s.setHalt c v w).ram = s.ram := by unfold State.setHalt; dsimp only; split <;> (try split) <;> (try split) <;> simp
@[simp] theorem State.setHalt_pt (c : Master) (v : Bool) (w : Master) : (s.setHalt c v w).pt = s.pt := by unfold State.setHalt; dsimp only; split <;> (try split) <;> (try split) <;> simp
@[simp] theorem State.setHalt_taskReq (c : Master) (v : Bool) (w : Master) : (s.setHalt c v w).taskReq = s.taskReq := by unfold State.setHalt; dsimp only; split <;> (try split) <;> (try split) <;> simp
@[simp] theorem State.setHalt_editTask (c : Master) (v : Bool) (w : Master) : (s.setHalt c v w).editTask = s.editTask := by unfold State.setHalt; dsimp only; split <;> (try split) <;> (try split) <;> simp
@[simp] theorem State.setHalt_pgEn (c : Master) (v : Bool) (w : Master) : (s.setHalt c v w).pgEn = s.pgEn := by unfold State.setHalt; dsimp only; split <;> (try split) <;> (try split) <;> simp
@[simp] theorem State.setHalt_romOvl (c : Master) (v : Bool) (w : Master) : (s.setHalt c v w).romOvl = s.romOvl := by unfold State.setHalt; dsimp only; split <;> (try split) <;> (try split) <;> simp
@[simp] theorem State.setHalt_route (c : Master) (v : Bool) (w : Master) : (s.setHalt c v w).route = s.route := by unfold State.setHalt; dsimp only; split <;> (try split) <;> (try split) <;> simp
@[simp] theorem State.setHalt_src (c : Master) (v : Bool) (w : Master) : (s.setHalt c v w).src = s.src := by unfold State.setHalt; dsimp only; split <;> (try split) <;> (try split) <;> simp
@[simp] theorem State.setHalt_irqEn (c : Master) (v : Bool) (w : Master) : (s.setHalt c v w).irqEn = s.irqEn := by unfold State.setHalt; dsimp only; split <;> (try split) <;> (try split) <;> simp
@[simp] theorem State.setHalt_firqEn (c : Master) (v : Bool) (w : Master) : (s.setHalt c v w).firqEn = s.firqEn := by unfold State.setHalt; dsimp only; split <;> (try split) <;> (try split) <;> simp
@[simp] theorem State.setHalt_irqLine (c : Master) (v : Bool) (w : Master) : (s.setHalt c v w).irqLine = s.irqLine := by unfold State.setHalt; dsimp only; split <;> (try split) <;> (try split) <;> simp
@[simp] theorem State.setHalt_firqLine (c : Master) (v : Bool) (w : Master) : (s.setHalt c v w).firqLine = s.firqLine := by unfold State.setHalt; dsimp only; split <;> (try split) <;> (try split) <;> simp
@[simp] theorem State.setHalt_nmiCtl (c : Master) (v : Bool) (w : Master) : (s.setHalt c v w).nmiCtl = s.nmiCtl := by unfold State.setHalt; dsimp only; split <;> (try split) <;> (try split) <;> simp
@[simp] theorem State.setHalt_nmiLast (c : Master) (v : Bool) (w : Master) : (s.setHalt c v w).nmiLast = s.nmiLast := by unfold State.setHalt; dsimp only; split <;> (try split) <;> (try split) <;> simp
@[simp] theorem State.setHalt_firstNmiArmed (c : Master) (v : Bool) (w : Master) : (s.setHalt c v w).firstNmiArmed = s.firstNmiArmed := by unfold State.setHalt; dsimp only; split <;> (try split) <;> (try split) <;> simp
@[simp] theorem State.setHalt_pending (c : Master) (v : Bool) (w : Master) : (s.setHalt c v w).pending = s.pending := by unfold State.setHalt; dsimp only; split <;> (try split) <;> (try split) <;> simp
@[simp] theorem State.setHalt_drawIndex (c : Master) (v : Bool) (w : Master) : (s.setHalt c v w).drawIndex = s.drawIndex := by unfold State.setHalt; dsimp only; split <;> (try split) <;> (try split) <;> simp
@[simp] theorem State.setHalt_outcome (c : Master) (v : Bool) (w : Master) : (s.setHalt c v w).outcome = s.outcome := by unfold State.setHalt; dsimp only; split <;> (try split) <;> (try split) <;> simp

/-! ### resetBlock -/

@[simp] theorem State.resetBlock_cfg : (s.resetBlock).cfg = s.cfg := rfl
@[simp] theorem State.resetBlock_ram : (s.resetBlock).ram = s.ram := rfl
@[simp] theorem State.resetBlock_pending : (s.resetBlock).pending = s.pending := rfl
@[simp] theorem State.resetBlock_drawIndex : (s.resetBlock).drawIndex = s.drawIndex := rfl
@[simp] theorem State.resetBlock_outcome : (s.resetBlock).outcome = s.outcome := rfl

/-! ### present -/

@[simp] theorem State.present_cfg (w : Word) : (s.present w).cfg = s.cfg := rfl
@[simp] theorem State.present_ram (w : Word) : (s.present w).ram = s.ram := rfl
@[simp] theorem State.present_pt (w : Word) : (s.present w).pt = s.pt := rfl
@[simp] theorem State.present_taskReq (w : Word) : (s.present w).taskReq = s.taskReq := rfl
@[simp] theorem State.present_editTask (w : Word) : (s.present w).editTask = s.editTask := rfl
@[simp] theorem State.present_pgEn (w : Word) : (s.present w).pgEn = s.pgEn := rfl
@[simp] theorem State.present_romOvl (w : Word) : (s.present w).romOvl = s.romOvl := rfl
@[simp] theorem State.present_route (w : Word) : (s.present w).route = s.route := rfl
@[simp] theorem State.present_src (w : Word) : (s.present w).src = s.src := rfl
@[simp] theorem State.present_irqEn (w : Word) : (s.present w).irqEn = s.irqEn := rfl
@[simp] theorem State.present_firqEn (w : Word) : (s.present w).firqEn = s.firqEn := rfl
@[simp] theorem State.present_irqLine (w : Word) : (s.present w).irqLine = s.irqLine := rfl
@[simp] theorem State.present_firqLine (w : Word) : (s.present w).firqLine = s.firqLine := rfl
@[simp] theorem State.present_haltDma (w : Word) : (s.present w).haltDma = s.haltDma := rfl
@[simp] theorem State.present_haltMain (w : Word) : (s.present w).haltMain = s.haltMain := rfl
@[simp] theorem State.present_nmiCtl (w : Word) : (s.present w).nmiCtl = s.nmiCtl := rfl
@[simp] theorem State.present_nmiLast (w : Word) : (s.present w).nmiLast = s.nmiLast := rfl
@[simp] theorem State.present_firstNmiArmed (w : Word) : (s.present w).firstNmiArmed = s.firstNmiArmed := rfl
@[simp] theorem State.present_yieldTo (w : Word) : (s.present w).yieldTo = s.yieldTo := rfl
@[simp] theorem State.present_history (w : Word) : (s.present w).history = s.history := rfl
@[simp] theorem State.present_drawIndex (w : Word) : (s.present w).drawIndex = s.drawIndex := rfl
@[simp] theorem State.present_outcome (w : Word) : (s.present w).outcome = s.outcome := rfl

/-! ### begun -/

@[simp] theorem State.begun_cfg (m : Master) (ib : Bool) : (s.begun m ib).cfg = s.cfg := rfl
@[simp] theorem State.begun_ram (m : Master) (ib : Bool) : (s.begun m ib).ram = s.ram := rfl
@[simp] theorem State.begun_pt (m : Master) (ib : Bool) : (s.begun m ib).pt = s.pt := rfl
@[simp] theorem State.begun_taskReq (m : Master) (ib : Bool) : (s.begun m ib).taskReq = s.taskReq := rfl
@[simp] theorem State.begun_editTask (m : Master) (ib : Bool) : (s.begun m ib).editTask = s.editTask := rfl
@[simp] theorem State.begun_pgEn (m : Master) (ib : Bool) : (s.begun m ib).pgEn = s.pgEn := rfl
@[simp] theorem State.begun_romOvl (m : Master) (ib : Bool) : (s.begun m ib).romOvl = s.romOvl := rfl
@[simp] theorem State.begun_route (m : Master) (ib : Bool) : (s.begun m ib).route = s.route := rfl
@[simp] theorem State.begun_src (m : Master) (ib : Bool) : (s.begun m ib).src = s.src := rfl
@[simp] theorem State.begun_irqEn (m : Master) (ib : Bool) : (s.begun m ib).irqEn = s.irqEn := rfl
@[simp] theorem State.begun_firqEn (m : Master) (ib : Bool) : (s.begun m ib).firqEn = s.firqEn := rfl
@[simp] theorem State.begun_irqLine (m : Master) (ib : Bool) : (s.begun m ib).irqLine = s.irqLine := rfl
@[simp] theorem State.begun_firqLine (m : Master) (ib : Bool) : (s.begun m ib).firqLine = s.firqLine := rfl
@[simp] theorem State.begun_haltDma (m : Master) (ib : Bool) : (s.begun m ib).haltDma = s.haltDma := rfl
@[simp] theorem State.begun_haltMain (m : Master) (ib : Bool) : (s.begun m ib).haltMain = s.haltMain := rfl
@[simp] theorem State.begun_nmiCtl (m : Master) (ib : Bool) : (s.begun m ib).nmiCtl = s.nmiCtl := rfl
@[simp] theorem State.begun_nmiLast (m : Master) (ib : Bool) : (s.begun m ib).nmiLast = s.nmiLast := rfl
@[simp] theorem State.begun_firstNmiArmed (m : Master) (ib : Bool) : (s.begun m ib).firstNmiArmed = s.firstNmiArmed := rfl
@[simp] theorem State.begun_history (m : Master) (ib : Bool) : (s.begun m ib).history = s.history := rfl
@[simp] theorem State.begun_pending (m : Master) (ib : Bool) : (s.begun m ib).pending = s.pending := rfl
@[simp] theorem State.begun_drawIndex (m : Master) (ib : Bool) : (s.begun m ib).drawIndex = s.drawIndex := rfl

/-! ### What the operations write -/

@[simp] theorem State.emit_history (e : Event) : (s.emit e).history = s.history ++ [e] := rfl
@[simp] theorem State.reply_history (m : Master) (v : Byte) : (s.reply m v).history = s.history ++ [.reply m v] := rfl
@[simp] theorem State.withOutcome_outcome (r : TxOutcome) : (s.withOutcome r).outcome = r := rfl
@[simp] theorem State.accepted_outcome : s.accepted.outcome = .done := rfl
@[simp] theorem State.drawn_drawIndex : s.drawn.drawIndex = s.drawIndex + 1 := rfl
@[simp] theorem State.begun_outcome (m : Master) (ib : Bool) : (s.begun m ib).outcome = .done := rfl

@[simp] theorem State.sync_get (lo hi b : Nib) :
    (s.sync lo hi).route.get b = if lo ≤ b ∧ b ≤ hi then s.resolve s.live b else s.route.get b := by
  simp [State.sync]

@[simp] theorem State.withPage_get (n k b : Nib) (d : Byte) :
    ((s.withPage n d).pt.get k).get b = if k = s.editTask ∧ b = n then d else (s.pt.get k).get b := by
  simp only [State.withPage, Vec16.get_set]
  by_cases h : k = s.editTask
  · subst h; simp [Vec16.get_set]
  · simp [h]

@[simp] theorem State.withHalt_halt (c : Master) (v : Bool) : (s.withHalt c v).halt c = v := by cases c <;> rfl

@[simp] theorem State.recalcIrq_irqLine : s.recalcIrq.irqLine = lineLevel s.src s.irqEn s.cfg.routeIrq := by
  unfold State.recalcIrq; dsimp only; split <;> simp_all

@[simp] theorem State.recalcFirq_firqLine : s.recalcFirq.firqLine = lineLevel s.src s.firqEn s.cfg.routeFirq := by
  unfold State.recalcFirq; dsimp only; split <;> simp_all

@[simp] theorem State.recalc_irqLine : s.recalc.irqLine = lineLevel s.src s.irqEn s.cfg.routeIrq := by
  simp [State.recalc]

@[simp] theorem State.recalc_firqLine : s.recalc.firqLine = lineLevel s.src s.firqEn s.cfg.routeFirq := by
  simp [State.recalc]

@[simp] theorem State.recalcNmi_nmiLast (v : Bool) : (s.recalcNmi v).nmiLast = v := by
  unfold State.recalcNmi; dsimp only; split <;> (try split) <;> rfl

end Sys2Proof.Machine
end

