-- ==== Sys2Proof/Laws/Ops.lean ====
section
/-! SUPPORT. One lemma per shared operation that says once everything it can do: admission, the recalculator, the NMI
edge, HALT control, translation, and reads and writes through a route. -/

namespace Sys2Proof.Machine

variable {s : State}

/-! ### Admission -/

theorem State.admits_of_not_boundary (m : Master) : s.Admits m false := by intro h; cases h

/-- Admission has a step exactly where the transaction is admitted, and it only clears the wait for `m` itself. -/
theorem State.admission_of_admits {m : Master} {ib : Bool} (h : s.Admits m ib) :
    (s.admission m ib).map (·.withOutcome .done) = some (s.begun m ib) := by
  cases ib with
  | false => rfl
  | true =>
    obtain ⟨h₁, h₂⟩ := h rfl
    unfold State.admission
    cases hy : s.yieldTo with
    | none => simp [h₁, State.begun, State.withOutcome, hy]
    | some x => simp [h₁, h₂ x hy, State.begun, State.withOutcome, hy]

theorem State.admission_of_not_admits {m : Master} {ib : Bool} (h : ¬ s.Admits m ib) : s.admission m ib = none := by
  cases ib with
  | false => exact absurd (admits_of_not_boundary m) h
  | true =>
    unfold State.admission
    cases hh : s.halt m with
    | true => simp
    | false =>
      cases hy : s.yieldTo with
      | none => exact absurd (fun _ => ⟨hh, by simp [hy]⟩) h
      | some x =>
        by_cases hx : x = m
        · exact absurd (fun _ => ⟨hh, by simp [hy, hx]⟩) h
        · simp [hx]

/-- An admitted transaction proceeds from `s.begun m ib`. -/
theorem State.admitted_of_admits {m : Master} {ib : Bool} (k : State → Answer) (h : s.Admits m ib) :
    s.admitted m ib k = k (s.begun m ib) := by
  have := admission_of_admits h
  unfold State.admitted
  cases ha : s.admission m ib with
  | none => simp [ha] at this
  | some t => simp only [ha, Option.map_some, Option.some.injEq] at this; simp [this]

/-- One that is not admitted is stuck. -/
theorem State.admitted_of_not_admits {m : Master} {ib : Bool} (k : State → Answer) (h : ¬ s.Admits m ib) :
    s.admitted m ib k = .next { s with outcome := .stuck } := by
  simp [State.admitted, admission_of_not_admits h, State.withOutcome]

/-- Everything an admitted-or-stuck transaction that answers a next state can have done. -/
theorem State.admitted_cases {m : Master} {ib : Bool} {k : State → Answer} {t : State}
    (h : s.admitted m ib k = .next t) :
    (¬ s.Admits m ib ∧ t = { s with outcome := .stuck }) ∨ (s.Admits m ib ∧ k (s.begun m ib) = .next t) := by
  by_cases ha : s.Admits m ib
  · exact .inr ⟨ha, by rwa [admitted_of_admits k ha] at h⟩
  · rw [admitted_of_not_admits k ha] at h
    exact .inl ⟨ha, by cases h; rfl⟩

@[simp] theorem State.begun_false (m : Master) : s.begun m false = { s with outcome := .done } := by
  simp [State.begun]

@[simp] theorem State.begun_halt (m : Master) (ib : Bool) (c : Master) : (s.begun m ib).halt c = s.halt c := by
  cases c <;> rfl

/-! ### The recalculator -/

theorem lineLevel_eq (src en wiring : Byte) : lineLevel src en wiring = decide (src &&& en &&& wiring ≠ 0#8) := by
  unfold lineLevel; cases h : (src &&& en &&& wiring) != 0#8 <;> simp_all

/-- The events of one recalculated line. -/
theorem State.recalcIrq_eq : s.recalcIrq = { s with
    irqLine := lineLevel s.src s.irqEn s.cfg.routeIrq
    history := s.history ++ changeEvent .irq s.irqLine (lineLevel s.src s.irqEn s.cfg.routeIrq) } := by
  unfold State.recalcIrq changeEvent; dsimp only; split
  · rename_i h; simp [h]
  · rfl

theorem State.recalcFirq_eq : s.recalcFirq = { s with
    firqLine := lineLevel s.src s.firqEn s.cfg.routeFirq
    history := s.history ++ changeEvent .firq s.firqLine (lineLevel s.src s.firqEn s.cfg.routeFirq) } := by
  unfold State.recalcFirq changeEvent; dsimp only; split
  · rename_i h; simp [h]
  · rfl

/-- `recalc()` sets both lines to their levels and appends an event for each that changes, IRQ first. -/
theorem State.recalc_eq : s.recalc = { s with
    irqLine := lineLevel s.src s.irqEn s.cfg.routeIrq
    firqLine := lineLevel s.src s.firqEn s.cfg.routeFirq
    history := s.history ++ s.recalcEvents (lineLevel s.src s.irqEn s.cfg.routeIrq)
      (lineLevel s.src s.firqEn s.cfg.routeFirq) } := by
  simp [State.recalc, State.recalcIrq_eq, State.recalcFirq_eq, State.recalcEvents]

/-! ### The NMI edge and HALT control -/

/-- `recalc_nmi(v)` updates the edge state, disarms the first-NMI guard on an edge, and pulses on an edge the guard does not
swallow. -/
theorem State.recalcNmi_eq (v : Bool) : s.recalcNmi v = { s with
    nmiLast := v
    firstNmiArmed := s.firstNmiArmed && !nmiQualifies s.cfg.nmiEdge s.nmiLast v
    history := s.history ++ (if s.nmiPulses v then [.nmiPulse] else []) } := by
  unfold State.recalcNmi State.nmiPulses State.emit
  cases h : nmiQualifies s.cfg.nmiEdge s.nmiLast v <;> cases h' : s.firstNmiArmed <;> simp

/-- A level presented again is no edge, whatever the polarity. -/
@[simp] theorem nmiQualifies_self (e : NmiEdge) (v : Bool) : nmiQualifies e v v = false := by
  cases e <;> cases v <;> rfl

theorem nmiQualifies_iff (e : NmiEdge) (last v : Bool) : nmiQualifies e last v = true ↔
    NmiOccurs e last v := by
  cases e <;> cases last <;> cases v <;> simp [nmiQualifies, NmiOccurs]

/-- `yield_to` after `set_halt(c, v, w)`. -/
def State.yieldAfter (s : State) (c : Master) (v : Bool) (w : Master) : Option Master :=
  if v = s.halt c then s.yieldTo
  else if v = true then (if s.yieldTo = some c then none else s.yieldTo)
  else if c ≠ w ∧ s.cfg.yieldOnUnhalt = true then some c else s.yieldTo

/-- `set_halt(c, v, w)` sets the bit, moves `yield_to`, and appends an event, all only on a change. -/
theorem State.setHalt_eq (c : Master) (v : Bool) (w : Master) : s.setHalt c v w = { s.withHalt c v with
    yieldTo := s.yieldAfter c v w
    history := s.history ++ changeEvent (haltLine c) (s.halt c) v } := by
  unfold State.setHalt State.yieldAfter changeEvent
  by_cases h : v = s.halt c
  · subst h
    cases c <;> simp [State.withHalt, State.halt]
  · simp only [if_neg h]
    cases v <;> cases c <;> simp [State.withHalt, State.emit] <;> split <;> simp_all

/-- A halt bit presented again changes nothing. -/
theorem State.setHalt_self (c w : Master) : s.setHalt c (s.halt c) w = s := by simp [State.setHalt]

/-! ### Translation -/

/-- `LIVE` as a number (R54). -/
theorem State.live_val (hc : s.cfg.SizesWf) : s.live.val = if s.pgEn = true then s.taskReq.toNat else 16 := by
  unfold State.live
  split
  · rfl
  · exact hc.2.2.2.2.2.1

/-- A programmable row is never the default one. -/
theorem State.ptAt_of_toNat (hc : s.cfg.SizesWf) {t : Fin 17} {k : Nib} (h : t.val = k.toNat) (b : Nib) :
    s.ptAt t b = (s.pt.get k).get b := by
  have hd : t ≠ s.cfg.defaultTask := fun e => by
    have := hc.2.2.2.2.2.1
    have := k.isLt
    rw [← e] at *
    omega
  simp [State.ptAt, hd, h]

theorem State.ptAt_defaultTask (b : Nib) : s.ptAt s.cfg.defaultTask b = defaultRow s.cfg b := by simp [State.ptAt]

/-- With paging disabled the live row is the default one. -/
theorem State.ptAt_live_unpaged (hp : s.pgEn = false) (b : Nib) : s.ptAt s.live b = defaultRow s.cfg b := by
  rw [State.live, hp]
  exact State.ptAt_defaultTask b

/-- The entry of the live row. -/
theorem State.ptAt_live (hc : s.cfg.SizesWf) (b : Nib) :
    s.ptAt s.live b = if s.pgEn = true then (s.pt.get s.taskReq).get b else defaultRow s.cfg b := by
  cases hp : s.pgEn
  · exact State.ptAt_live_unpaged hp b
  · rw [State.ptAt_of_toNat hc (k := s.taskReq) (by rw [State.live_val hc, hp]; rfl)]
    rfl

/-- `LIVE` depends only on the parameters, the selected task and the paging bit. -/
theorem State.live_congr {s t : State} (hc : t.cfg = s.cfg) (ht : t.taskReq = s.taskReq) (hg : t.pgEn = s.pgEn) :
    t.live = s.live := by
  simp only [State.live, hc, ht, hg]

/-- The live entry of a block depends, in the Page Table, on that entry of the selected task alone, and on it only with
paging enabled. -/
theorem State.ptAt_live_congr {s t : State} (hc : t.cfg = s.cfg) (ht : t.taskReq = s.taskReq) (hg : t.pgEn = s.pgEn)
    {b : Nib} (hp : s.pgEn = true → (t.pt.get s.taskReq).get b = (s.pt.get s.taskReq).get b) :
    t.ptAt t.live b = s.ptAt s.live b := by
  rw [State.live_congr hc ht hg, State.ptAt, State.ptAt, hc]
  split
  · rfl
  · rename_i hd
    cases hs : s.pgEn
    · exact absurd (by simp [State.live, hs]) hd
    · have : BitVec.ofNat 4 s.live.val = s.taskReq := by simp [State.live, hs]
      rw [this, hp hs]

/-- `resolve(LIVE, b)` depends only on the parameters, the Page Table, the selected task and the mode bits. -/
theorem State.resolve_live_congr {s t : State} (hc : t.cfg = s.cfg) (hp : t.pt = s.pt) (ht : t.taskReq = s.taskReq)
    (hg : t.pgEn = s.pgEn) (ho : t.romOvl = s.romOvl) (b : Nib) : t.resolve t.live b = s.resolve s.live b := by
  simp only [State.resolve, State.ptAt, State.live_congr hc ht hg, hc, hp, ho]

/-- Coherence depends only on the routing table and what `resolve` reads. -/
theorem State.Coherent.congr {s t : State} (h : s.Coherent) (hr : t.route = s.route) (hc : t.cfg = s.cfg)
    (hp : t.pt = s.pt) (ht : t.taskReq = s.taskReq) (hg : t.pgEn = s.pgEn) (ho : t.romOvl = s.romOvl) : t.Coherent := by
  intro b
  rw [hr, h b, State.resolve_live_congr hc hp ht hg ho]

/-- A full sync makes the routing table coherent. -/
theorem State.sync_coherent : (s.sync 0 15).Coherent := by
  intro b
  have h15 : b ≤ 15#4 := by have := b.isLt; simp [BitVec.le_def]; omega
  have h0 : (0#4) ≤ b := by simp [BitVec.le_def]
  simp only [State.sync_get]
  rw [if_pos ⟨h0, h15⟩]
  exact (State.resolve_live_congr rfl rfl rfl rfl rfl b).symm

/-- On a coherent routing table a full sync changes nothing. -/
theorem State.Coherent.sync_eq (h : s.Coherent) (lo hi : Nib) : s.sync lo hi = s := by
  have : (Vec16.tab fun b => if lo ≤ b ∧ b ≤ hi then s.resolve s.live b else s.route.get b) = s.route := by
    apply Vec16.ext; intro b; simp [h b]
  simp only [State.sync, this]

theorem blockSize_eq {c : Config} (hc : c.SizesWf) : c.blockSize = 4096 := by simp [Config.blockSize, hc.2.1]

theorem romFirst_eq {c : Config} (hc : c.SizesWf) : c.romFirst = 256 - c.romBlocks := by
  simp [Config.romFirst, Config.physBlocks, hc.2.2.2.2.2.2.1]

theorem blockOf_eq {c : Config} (hc : c.SizesWf) (a : Addr) : blockOf c a = a.extractLsb' 12 4 := by
  apply BitVec.eq_of_toNat_eq
  simp [blockOf, blockSize_eq hc, BitVec.extractLsb'_toNat, Nat.shiftRight_eq_div_pow]

theorem offsetOf_eq {c : Config} (hc : c.SizesWf) (a : Addr) : offsetOf c a = a.toNat % 4096 := by
  rw [offsetOf, blockSize_eq hc]

theorem offsetOf_lt (c : Config) (a : Addr) : offsetOf c a < c.blockSize := Nat.mod_lt _ (Nat.two_pow_pos _)

/-- `ROM_BLOCKS` is at least 1 and at most 64 (R8). -/
theorem romBlocks_bounds {c : Config} (h : c.BlocksWf) : 1 ≤ c.romBlocks ∧ c.romBlocks ≤ 64 := by
  have := h.1
  simp only [List.mem_cons, List.not_mem_nil, or_false] at this
  omega

/-- The byte at an offset of block `k` of an array of `n` blocks lies inside the array. -/
theorem block_offset_lt {k n size o : Nat} (h : k < n) (ho : o < size) : k * size + o < n * size := by
  have := Nat.mul_le_mul_right size (show k + 1 ≤ n from h)
  rw [Nat.add_mul, Nat.one_mul] at this
  omega

/-- `resolve` answers a RAM block inside RAM, writable, or a ROM block inside ROM, read-only (R64). -/
theorem resolvePte_bounds {c : Config} (hc : c.BlocksWf) (ovl : Bool) (v : Byte) (b : Nib) {o : Nat}
    (ho : o < c.blockSize) :
    let r := resolvePte c ovl v b
    (r.region = .ram ∧ r.writable = true ∧ r.base + o < c.ramBlocks * c.blockSize) ∨
      (r.region = .rom ∧ r.writable = false ∧ r.base + o < c.romBlocks * c.blockSize) := by
  have hmod : ∀ n, n % c.romBlocks * c.blockSize + o < c.romBlocks * c.blockSize :=
    fun n => block_offset_lt (Nat.mod_lt n (romBlocks_bounds hc).1) ho
  unfold resolvePte
  split
  · exact .inr ⟨rfl, rfl, hmod _⟩
  · unfold decodePte
    split
    · rename_i h
      exact .inl ⟨rfl, rfl, block_offset_lt h ho⟩
    · exact .inr ⟨rfl, rfl, hmod _⟩

/-- Outside the I/O window, on a coherent table, the route of an address is a RAM byte inside RAM or a ROM byte inside
ROM. -/
theorem State.routeOf_bounds (hc : s.cfg.BlocksWf) (h : s.Coherent) {a : Addr} (ha : inIoWindow s.cfg a = false) :
    ((s.routeOf a).region = .ram ∧ (s.routeOf a).writable = true ∧ (s.routeOf a).base < s.ramSize) ∨
      ((s.routeOf a).region = .rom ∧ (s.routeOf a).writable = false ∧ (s.routeOf a).base < s.romSize) := by
  simpa [State.routeOf, ha, h (blockOf s.cfg a), State.resolve, State.ramSize, State.romSize] using
    resolvePte_bounds hc s.romOvl (s.ptAt s.live (blockOf s.cfg a)) (blockOf s.cfg a) (offsetOf_lt s.cfg a)

/-! ### Reads and writes through a route -/

theorem State.ramByte_withRamByte (o p : Nat) (v : Byte) :
    (s.withRamByte o v).ramByte p = if p = o then v else s.ramByte p := by
  simp [State.ramByte, State.withRamByte, Memory.read_write]

/-- The read of a route inside the arrays. -/
theorem State.readRoute_ram {r : RouteEntry} (h : r.region = .ram) (hb : r.base < s.ramSize) :
    s.readRoute r = .ok (s.ramByte r.base) := by
  simp [State.readRoute, h, State.ramRead, hb]

theorem State.readRoute_rom {r : RouteEntry} (h : r.region = .rom) (hb : r.base < s.romSize) :
    s.readRoute r = .ok (s.romByte r.base) := by
  simp [State.readRoute, h, State.romRead, hb]

/-- The write of a route inside the arrays. -/
theorem State.writeRoute_ram {r : RouteEntry} (d : Byte) (h : r.region = .ram) (hw : r.writable = true)
    (hb : r.base < s.ramSize) : s.writeRoute r d = .ok (s.withRamByte r.base d) := by
  simp [State.writeRoute, h, hw, State.ramWrite, hb]

theorem State.writeRoute_rom {r : RouteEntry} (d : Byte) (h : r.region = .rom) : s.writeRoute r d = .ok s := by
  simp [State.writeRoute, h]

/-- Everything a write through a route can do: nothing, or one byte of RAM. -/
theorem State.writeRoute_cases {r : RouteEntry} {d : Byte} {t : State} (h : s.writeRoute r d = .ok t) :
    t = s ∨ (r.region = .ram ∧ r.writable = true ∧ r.base < s.ramSize ∧ t = s.withRamByte r.base d) := by
  unfold State.writeRoute at h
  split at h
  · split at h
    · unfold State.ramWrite at h
      split at h
      · cases h; exact .inr ⟨‹_›, ‹_›, ‹_›, rfl⟩
      · cases h
    · cases h; exact .inl rfl
  · cases h; exact .inl rfl
  · cases h

/-- Outside the I/O window, on a coherent table, a read answers the byte the route names. -/
theorem State.readRoute_routeOf (hc : s.cfg.BlocksWf) (h : s.Coherent) {a : Addr} (ha : inIoWindow s.cfg a = false) :
    s.readRoute (s.routeOf a) =
      .ok (if (s.routeOf a).region = .ram then s.ramByte (s.routeOf a).base else s.romByte (s.routeOf a).base) := by
  rcases State.routeOf_bounds hc h ha with ⟨h₁, -, h₃⟩ | ⟨h₁, -, h₃⟩
  · rw [State.readRoute_ram h₁ h₃]; simp [h₁]
  · rw [State.readRoute_rom h₁ h₃]; simp [h₁]

/-- Coherence survives the start of a transaction. -/
theorem State.Coherent.begun (h : s.Coherent) (m : Master) (ib : Bool) : (s.begun m ib).Coherent :=
  h.congr rfl rfl rfl rfl rfl rfl

/-- `DEFAULT_ROW` as numbers (R26). -/
theorem defaultRow_eq (c : Config) (b : Nib) :
    defaultRow c b = if b = 0#4 then BitVec.ofNat 8 c.romFirst else BitVec.ofNat 8 b.toNat := by
  unfold defaultRow
  split
  · rfl
  · apply BitVec.eq_of_toNat_eq; simp

/-- R8: on the explicit ROM range, `v mod ROM_BLOCKS` is `v − ROM_FIRST`. -/
theorem mod_romBlocks_of_romFirst_le {c : Config} (h : c.Wf) {v : Nat} (hv : v < 256) (hr : c.romFirst ≤ v) :
    v % c.romBlocks = v - c.romFirst := by
  have := h.2.2.1
  simp only [List.mem_cons, List.not_mem_nil, or_false] at this
  rw [romFirst_eq h.1] at *
  rcases this with e | e | e | e | e | e | e <;> rw [e] at hr ⊢ <;> omega

/-! ### Bits of the sources and the levels -/

/-- A line is at level 1 exactly when some source is pending, enabled and wired to it. -/
theorem lineLevel_iff (src en wiring : Byte) : lineLevel src en wiring = true ↔
    ∃ k, k < 8 ∧ src.getLsbD k = true ∧ en.getLsbD k = true ∧ wiring.getLsbD k = true := by
  rw [lineLevel_eq, decide_eq_true_eq]
  constructor
  · intro h
    by_contra hx
    apply h
    apply BitVec.eq_of_getLsbD_eq
    intro i hi
    rw [BitVec.getLsbD_and, BitVec.getLsbD_and, BitVec.getLsbD_zero]
    by_contra hy
    simp only [Bool.not_eq_false, Bool.and_eq_true] at hy
    exact hx ⟨i, hi, hy.1.1, hy.1.2, hy.2⟩
  · rintro ⟨k, -, h₁, h₂, h₃⟩ h
    have := congrArg (fun v => v.getLsbD k) h
    simp [h₁, h₂, h₃] at this

theorem srcWithSwi_getLsbD (src : Byte) (b : Bool) (k : Nat) :
    (srcWithSwi src b).getLsbD k = if k < 7 then src.getLsbD k else if k = 7 then b else false := by
  refine Eq.trans (BitVec.getLsbD_append (x := BitVec.ofBool b) (y := src.extractLsb' 0 7) (i := k)) ?_
  simp only [BitVec.getLsbD_extractLsb', BitVec.getLsbD_ofBool]
  by_cases h : k < 7
  · simp [h]
  · by_cases h' : k = 7
    · simp [h']
    · have : k - 7 ≠ 0 := by omega
      simp [h, h', this]

theorem srcAfterUpdate_getLsbD (latched src mask val : Byte) {k : Nat} (hk : k < 8) :
    (srcAfterUpdate latched src mask val).getLsbD k =
      if k < 7 ∧ mask.getLsbD k = true then
        (if latched.getLsbD k = true then (src.getLsbD k || val.getLsbD k) else val.getLsbD k)
      else src.getLsbD k := by
  have h7 : (0x7F#8).getLsbD k = decide (k < 7) := by interval_cases k <;> rfl
  simp only [srcAfterUpdate, BitVec.getLsbD_or, BitVec.getLsbD_and, BitVec.getLsbD_not, h7, hk, decide_true, Bool.true_and]
  by_cases h : k < 7 <;> simp only [h, decide_true, decide_false] <;>
    cases mask.getLsbD k <;> cases latched.getLsbD k <;> cases src.getLsbD k <;> cases val.getLsbD k <;> simp

theorem srcAfterStatusRead_getLsbD (latched src : Byte) {k : Nat} (hk : k < 8) :
    (srcAfterStatusRead latched src).getLsbD k = (src.getLsbD k && !latched.getLsbD k) := by
  simp [srcAfterStatusRead, hk]

end Sys2Proof.Machine
end

