-- ==== Sys2Proof/Laws/Exec.lean ====
section
/-! SUPPORT. Every transaction cut in two: its admission, and its rule from the state it proceeds from. What a claim about
all transactions needs is proved of the rule alone and carried over by `exec_cases`. -/

namespace Sys2Proof.Machine

/-- The rule of a transaction, from the state it proceeds from: what follows admission in its pseudocode. -/
def body : Instr → State → Answer
  | .rdMem m _ a => fun s =>
    match s.readRoute (s.routeOf a) with
    | .ok v => .next (s.reply m v)
    | .error f => .fault f
  | .wrMem _ _ a d => fun s =>
    match s.writeRoute (s.routeOf a) d with
    | .ok t => .next t
    | .error f => .fault f
  | .rdExtio m _ a => fun s => .next ((s.drawn.emit (.extRd a s.nextDraw)).reply m s.nextDraw)
  | .wrExtio _ _ a d => fun s => .next (s.emit (.extWr a d))
  | .rdTaskSel m _ => fun s => .next (s.reply m s.taskSelByte)
  | .wrTaskSel _ _ d => fun s => .next (({ s with taskReq := taskField d } : State).sync 0 15)
  | .rdEditTask m _ => fun s => .next (s.reply m s.editTaskByte)
  | .wrEditTask _ _ d => fun s => .next { s with editTask := taskField d }
  | .rdMmuCtrl m _ => fun s => .next (s.reply m s.mmuCtrlByte)
  | .wrMmuCtrl _ _ d => fun s =>
    .next (({ s with pgEn := pgEnField d, romOvl := romOvlField d } : State).sync 0 15)
  | .rdPage m _ n => fun s => .next (s.reply m (s.pageByte n))
  | .wrPage _ _ n d => fun s =>
    .next (if (s.withPage n d).pgEn = true ∧ (s.withPage n d).editTask = (s.withPage n d).taskReq
      then (s.withPage n d).sync n n else s.withPage n d)
  | .rdUnimpl m _ _ => fun s => .next (s.reply m s.cfg.unmappedRead)
  | .wrUnimpl _ _ _ _ => fun s => .next s
  | .rdCpuCtrl m _ => fun s => .next (s.reply m s.cpuCtrlByte)
  | .wrCpuCtrl m _ d => fun s =>
    .next (({ (s.setHalt .dma (dmaHaltField d) m).setHalt .main (mainHaltField d) m with
      nmiCtl := nmiTrigField d } : State).recalcNmi (nmiTrigField d))
  | .rdIrqEn m _ => fun s => .next (s.reply m s.irqEn)
  | .wrIrqEn _ _ d => fun s => .next ({ s with irqEn := d } : State).recalc
  | .rdFirqEn m _ => fun s => .next (s.reply m s.firqEn)
  | .wrFirqEn _ _ d => fun s => .next ({ s with firqEn := d } : State).recalc
  | .rdIntStatus m _ => fun s =>
    .next ({ s.reply m s.src with src := srcAfterStatusRead s.cfg.latchedMask s.src } : State).recalc
  | .wrIntStatus _ _ _ => fun s => .next s
  | .rdIntSwi m _ => fun s => .next (s.reply m s.intSwiByte)
  | .wrIntSwi _ _ d => fun s => .next ({ s with src := srcWithSwi s.src (swiField d) } : State).recalc
  | .rdIntLines m _ => fun s => .next (s.reply m s.intLinesByte)
  | .wrIntLines _ _ _ => fun s => .next s
  | .iack m _ => fun s => .next (s.reply m s.cfg.iackVector)
  | .srcUpdate mask val => fun s =>
    .next ({ s with src := srcAfterUpdate s.cfg.latchedMask s.src mask val } : State).recalc
  | .nmiIn v => fun s => .next (s.recalcNmi v)
  | .reset => fun s => .next s.resetBlock

/-- A master's transaction is its rule behind admission (R118). -/
theorem exec_of_presenter {i : Instr} {m : Master} {ib : Bool} (h : i.presenter = some (m, ib)) (s : State) :
    exec i s = s.admitted m ib (body i) := by
  cases i <;> cases h <;> rfl

/-- The environment's transaction is its rule (R180). -/
theorem exec_of_environment {i : Instr} (h : i.presenter = none) (s : State) : exec i s = body i s.accepted := by
  cases i <;> first | rfl | cases h

/-- An admitted master's transaction is its rule from `s.begun m ib`. -/
theorem exec_of_admits {i : Instr} {m : Master} {ib : Bool} (h : i.presenter = some (m, ib)) {s : State}
    (ha : s.Admits m ib) : exec i s = body i (s.begun m ib) := by
  rw [exec_of_presenter h, State.admitted_of_admits _ ha]

/-- A master's transaction that is not admitted is stuck. -/
theorem exec_of_not_admits {i : Instr} {m : Master} {ib : Bool} (h : i.presenter = some (m, ib)) {s : State}
    (ha : ¬ s.Admits m ib) : exec i s = .next { s with outcome := .stuck } := by
  rw [exec_of_presenter h, State.admitted_of_not_admits _ ha]

/-- Everything a transaction that answers a next state can have done: nothing (it was stuck), or its rule, from the state
before it but for `yield_to` and the outcome, which the CPU waited for may have cleared. -/
theorem exec_cases {i : Instr} {s t : State} (h : exec i s = .next t) :
    t = { s with outcome := .stuck } ∨
      ∃ y, body i { s with yieldTo := y, outcome := .done } = .next t ∧
        (y = s.yieldTo ∨ ∃ m, s.yieldTo = some m ∧ y = none ∧ i.presenter = some (m, true)) := by
  cases hp : i.presenter with
  | none =>
    rw [exec_of_environment hp] at h
    exact .inr ⟨s.yieldTo, h, .inl rfl⟩
  | some p =>
    obtain ⟨m, ib⟩ := p
    by_cases ha : s.Admits m ib
    · rw [exec_of_admits hp ha] at h
      refine .inr ⟨_, h, ?_⟩
      by_cases hy : ib = true ∧ s.yieldTo = some m
      · exact .inr ⟨m, hy.2, by simp [hy], by rw [hy.1]⟩
      · exact .inl (by simp [hy])
    · rw [exec_of_not_admits hp ha] at h
      cases h
      exact .inl rfl

/-! ### Register transactions, from their rule -/

/-- Every master's transaction is stuck where it is not admitted. -/
theorem stuckUnlessAdmitted {i : Instr} {m : Master} {ib : Bool} (h : i.presenter = some (m, ib)) :
    StuckUnlessAdmitted i m ib := fun _ ha => exec_of_not_admits h ha

/-- A READ whose rule only replies. -/
theorem readsRegister {c : Config} {i : Instr} {m : Master} {ib : Bool} {a : Addr} {value : State → Byte}
    (hp : i.presenter = some (m, ib)) (hd : decodeRead c m ib a = i) (hb : ∀ s, body i s = .next (s.reply m (value s)))
    (hv : ∀ s : State, value (s.begun m ib) = value s) : ReadsRegister c i m ib a value := by
  refine ⟨by rw [decode_encodeRead, hd], stuckUnlessAdmitted hp, fun s ha => ?_⟩
  rw [exec_of_admits hp ha, hb, hv]
  rfl

/-- A WRITE whose rule completes with the effect. -/
theorem writesRegister {c : Config} {i : Instr} {m : Master} {ib : Bool} {a : Addr} {d : Byte}
    {effect : State → State → Prop} (hp : i.presenter = some (m, ib)) (hd : decodeWrite c m ib a d = i)
    (hb : ∀ s, ∃ t, body i s = .next t ∧ effect s t) : WritesRegister c i m ib a d effect := by
  refine ⟨by rw [decode_encodeWrite, hd], stuckUnlessAdmitted hp, fun s ha => ?_⟩
  rw [exec_of_admits hp ha]
  exact hb _

/-- A register's address, from its offset: the window's base is all that moves. -/
theorem registerAt_eq (c : Config) (o : BitVec 5) : registerAt c (0xFCC0#16 + o.zeroExtend 16) = regAddr c o := by
  rw [registerAt, regAddr, BitVec.add_comm 0xFCC0#16, BitVec.add_sub_cancel]

/-- The word of the register that R85 lists at offset `o` decodes by that offset, wherever the window lies. -/
theorem decodeRead_registerAt {c : Config} (h : c.WindowsWf) {m : Master} {ib : Bool} (o : BitVec 5) {i : Instr}
    (hi : ∀ a, regOffset a = o → decodeRegRead m ib a = i) :
    decodeRead c m ib (registerAt c (0xFCC0#16 + o.zeroExtend 16)) = i := by
  rw [registerAt_eq]
  exact decodeRead_regAddr m ib h hi

theorem decodeWrite_registerAt {c : Config} (h : c.WindowsWf) {m : Master} {ib : Bool} {d : Byte} (o : BitVec 5)
    {i : Instr} (hi : ∀ a, regOffset a = o → decodeRegWrite m ib a d = i) :
    decodeWrite c m ib (registerAt c (0xFCC0#16 + o.zeroExtend 16)) d = i := by
  rw [registerAt_eq]
  exact decodeWrite_regAddr m ib d h hi

/-- Page register `n` is the one that R85 lists at `$FCD0 + n`. -/
theorem registerAt_page (c : Config) (n : Nib) : registerAt c (0xFCD0#16 + BitVec.ofNat 16 n.toNat) = pageAddr c n := by
  rw [registerAt, pageAddr, regAddr]
  congr 1
  have := n.isLt
  apply BitVec.eq_of_toNat_eq
  simp
  omega

/-- The addresses that R85 lists as unimplemented are at offsets 0x09 to 0x0F. -/
theorem unimplemented_offset {a : Addr} (h₁ : 0xFCC9#16 ≤ a) (h₂ : a ≤ 0xFCCF#16) :
    ∃ o : BitVec 5, a = 0xFCC0#16 + o.zeroExtend 16 ∧ 9 ≤ o.toNat ∧ o.toNat ≤ 15 := by
  have h₁' : 0xFCC9 ≤ a.toNat := h₁
  have h₂' : a.toNat ≤ 0xFCCF := h₂
  have ha : a = BitVec.ofNat 16 a.toNat := by simp
  rw [ha]
  generalize a.toNat = n at h₁' h₂'
  refine ⟨BitVec.ofNat 5 n, ?_⟩
  interval_cases n <;> exact ⟨rfl, by decide, by decide⟩

/-- The addresses that R85 lists as unimplemented are, wherever the window lies. -/
theorem isUnimplemented_registerAt {c : Config} (h : c.WindowsWf) {a : Addr} (h₁ : 0xFCC9#16 ≤ a) (h₂ : a ≤ 0xFCCF#16) :
    isUnimplemented c (registerAt c a) = true := by
  obtain ⟨o, rfl, h₃, h₄⟩ := unimplemented_offset h₁ h₂
  rw [registerAt_eq, isUnimplemented_iff, regOffset_regAddr h]
  exact ⟨inRegWindow_regAddr h _, h₃, h₄⟩

end Sys2Proof.Machine
end

