-- ==== Sys2Proof/Laws/History.lean ====
section
/-! SUPPORT. Replaying a history. -/

namespace Sys2Proof.Machine

theorem Levels.replay_append (v : Levels) (a b : List Event) : v.replay (a ++ b) = (v.replay a).bind (·.replay b) := by
  induction a generalizing v with
  | nil => rfl
  | cons e es ih =>
    simp only [List.cons_append, Levels.replay]
    cases v.after e with
    | none => rfl
    | some u => exact ih u

/-- The event of a change moves the level it names, and no other. -/
theorem Levels.replay_changeEvent (v : Levels) (l : Line) (b : Bool) :
    v.replay (changeEvent l (v.get l) b) = some (v.set l b) := by
  unfold changeEvent
  split
  · subst_vars; cases l <;> rfl
  · rename_i h
    simp only [Levels.replay, Levels.after, if_neg (fun e => h (Eq.symm e))]

/-- An exact history stays exact under events that account for the change of levels. -/
theorem State.HistoryExact.append {s t : State} (h : s.HistoryExact) (es : List Event)
    (h₁ : t.history = s.history ++ es) (h₂ : s.levels.replay es = some t.levels) : t.HistoryExact := by
  unfold State.HistoryExact
  rw [h₁, Levels.replay_append, h]
  exact h₂

end Sys2Proof.Machine
end

