-- ==== Sys2Proof/Laws/PerInstr.lean ====
section
/-! SUPPORT. The statements made of every transaction, one lemma per constructor: the encoder's word belongs to the row of
spec/opcode_table.json the constructor stands for (30_encoding.md R105). -/

namespace Sys2Proof.Laws

open Sys2Proof

/-! ### A masked word of format RW -/

/-- The mask of a table row of format RW: the KIND bits, the must-be-zero bits, and the masked bits of ADDR and DATA. -/
def rwMask (am : Addr) (dm : Byte) : Word := encodeRW 7#3 .main false am dm ||| 0x07000000#32

theorem getLsbD_rwMask (am : Addr) (dm : Byte) (i : Nat) (hi : i < 32) : (rwMask am dm).getLsbD i =
    if i < 8 then dm.getLsbD i else if i < 24 then am.getLsbD (i - 8) else if i < 27 then true
    else if i = 27 then false else if i = 28 then false else true := by
  have hg : (0x07000000#32).getLsbD i = decide (24 ≤ i ∧ i < 27) := by interval_cases i <;> rfl
  rw [rwMask, BitVec.getLsbD_or, getLsbD_encodeRW, hg]
  split_ifs with h1 h2 h3 h4 h5
  · simp [show ¬ 24 ≤ i by omega]
  · simp [show ¬ 24 ≤ i by omega]
  · simp [show 24 ≤ i by omega, h3]
  · simp [h4]
  · simp [h5, Master.bit]
  · have : i = 29 ∨ i = 30 ∨ i = 31 := by omega
    rcases this with rfl | rfl | rfl <;> rfl

/-- Masking a word of format RW masks its address and data and drops the master and the boundary flag. -/
theorem and_rwMask (k : BitVec 3) (m : Master) (ib : Bool) (a am : Addr) (d dm : Byte) :
    encodeRW k m ib a d &&& rwMask am dm = encodeRW k .main false (a &&& am) (d &&& dm) := by
  apply BitVec.eq_of_getLsbD_eq
  intro i hi
  rw [BitVec.getLsbD_and, getLsbD_encodeRW, getLsbD_encodeRW, getLsbD_rwMask _ _ _ hi]
  split_ifs <;> simp [Master.bit]

/-- A word of format RW is of the row whose masked address and data it has. -/
theorem row_of_rw {k : BitVec 3} {m : Master} {ib : Bool} {a : Addr} {d : Byte} {row : TableRow} (am : Addr) (dm : Byte)
    (ha : Addr) (hm : row.rowMask = rwMask am dm) (hv : row.rowMatch = encodeRW k .main false ha 0#8)
    (h₁ : a &&& am = ha) (h₂ : d &&& dm = 0#8) : encodeRW k m ib a d &&& row.rowMask = row.rowMatch := by
  rw [hm, hv, and_rwMask, h₁, h₂]

theorem and_page (n : Nib) : pageAddr Config.launch n &&& 0xFFF0#16 = 0xFCD0#16 := by
  rcases Vec16.nib_cases n with h | h | h | h | h | h | h | h | h | h | h | h | h | h | h | h <;> subst h <;> rfl

theorem and_unimplemented {a : Addr} (h : isUnimplemented Config.launch a = true) : a &&& 0xFFF8#16 = 0xFCC8#16 := by
  obtain ⟨hr, h1, h2⟩ := (isUnimplemented_iff _ a).mp h
  rw [← regAddr_regOffset (Config.standard_wf _ _ _).2.1 hr]
  generalize regOffset a = o at h1 h2
  have : o = BitVec.ofNat 5 o.toNat := by simp
  rw [this]
  generalize o.toNat = n at h1 h2
  interval_cases n <;> rfl

namespace EncodesTableRow

/-- The word of a well-formed transaction is of its row: `w & mask = match`, under the windows of R7, for which the table is
laid out. -/
def Statement (i : Instr) : Prop :=
  i.wellFormed Config.launch = true → encode Config.launch i &&& i.row.rowMask = i.row.rowMatch

theorem rdMem (m : Master) (ib : Bool) (a : Addr) : Statement (.rdMem m ib a) :=
  fun _ => row_of_rw 0#16 0xFF#8 0#16 rfl rfl BitVec.and_zero rfl

theorem wrMem (m : Master) (ib : Bool) (a : Addr) (d : Byte) : Statement (.wrMem m ib a d) :=
  fun _ => row_of_rw 0#16 0#8 0#16 rfl rfl BitVec.and_zero BitVec.and_zero

theorem rdExtio (m : Master) (ib : Bool) (a : Addr) : Statement (.rdExtio m ib a) :=
  fun _ => row_of_rw 0#16 0xFF#8 0#16 rfl rfl BitVec.and_zero rfl

theorem wrExtio (m : Master) (ib : Bool) (a : Addr) (d : Byte) : Statement (.wrExtio m ib a d) :=
  fun _ => row_of_rw 0#16 0#8 0#16 rfl rfl BitVec.and_zero BitVec.and_zero

theorem rdTaskSel (m : Master) (ib : Bool) : Statement (.rdTaskSel m ib) :=
  fun _ => row_of_rw 0xFFFF#16 0xFF#8 0xFCC0#16 rfl rfl rfl rfl

theorem wrTaskSel (m : Master) (ib : Bool) (d : Byte) : Statement (.wrTaskSel m ib d) :=
  fun _ => row_of_rw 0xFFFF#16 0#8 0xFCC0#16 rfl rfl rfl BitVec.and_zero

theorem rdEditTask (m : Master) (ib : Bool) : Statement (.rdEditTask m ib) :=
  fun _ => row_of_rw 0xFFFF#16 0xFF#8 0xFCC1#16 rfl rfl rfl rfl

theorem wrEditTask (m : Master) (ib : Bool) (d : Byte) : Statement (.wrEditTask m ib d) :=
  fun _ => row_of_rw 0xFFFF#16 0#8 0xFCC1#16 rfl rfl rfl BitVec.and_zero

theorem rdMmuCtrl (m : Master) (ib : Bool) : Statement (.rdMmuCtrl m ib) :=
  fun _ => row_of_rw 0xFFFF#16 0xFF#8 0xFCC2#16 rfl rfl rfl rfl

theorem wrMmuCtrl (m : Master) (ib : Bool) (d : Byte) : Statement (.wrMmuCtrl m ib d) :=
  fun _ => row_of_rw 0xFFFF#16 0#8 0xFCC2#16 rfl rfl rfl BitVec.and_zero

theorem rdPage (m : Master) (ib : Bool) (n : Nib) : Statement (.rdPage m ib n) :=
  fun _ => row_of_rw 0xFFF0#16 0xFF#8 0xFCD0#16 rfl rfl (and_page n) rfl

theorem wrPage (m : Master) (ib : Bool) (n : Nib) (d : Byte) : Statement (.wrPage m ib n d) :=
  fun _ => row_of_rw 0xFFF0#16 0#8 0xFCD0#16 rfl rfl (and_page n) BitVec.and_zero

theorem rdUnimpl (m : Master) (ib : Bool) (a : Addr) : Statement (.rdUnimpl m ib a) :=
  fun h => row_of_rw 0xFFF8#16 0xFF#8 0xFCC8#16 rfl rfl (and_unimplemented h) rfl

theorem wrUnimpl (m : Master) (ib : Bool) (a : Addr) (d : Byte) : Statement (.wrUnimpl m ib a d) :=
  fun h => row_of_rw 0xFFF8#16 0#8 0xFCC8#16 rfl rfl (and_unimplemented h) BitVec.and_zero

theorem rdCpuCtrl (m : Master) (ib : Bool) : Statement (.rdCpuCtrl m ib) :=
  fun _ => row_of_rw 0xFFFF#16 0xFF#8 0xFCC3#16 rfl rfl rfl rfl

theorem wrCpuCtrl (m : Master) (ib : Bool) (d : Byte) : Statement (.wrCpuCtrl m ib d) :=
  fun _ => row_of_rw 0xFFFF#16 0#8 0xFCC3#16 rfl rfl rfl BitVec.and_zero

theorem rdIrqEn (m : Master) (ib : Bool) : Statement (.rdIrqEn m ib) :=
  fun _ => row_of_rw 0xFFFF#16 0xFF#8 0xFCC4#16 rfl rfl rfl rfl

theorem wrIrqEn (m : Master) (ib : Bool) (d : Byte) : Statement (.wrIrqEn m ib d) :=
  fun _ => row_of_rw 0xFFFF#16 0#8 0xFCC4#16 rfl rfl rfl BitVec.and_zero

theorem rdFirqEn (m : Master) (ib : Bool) : Statement (.rdFirqEn m ib) :=
  fun _ => row_of_rw 0xFFFF#16 0xFF#8 0xFCC5#16 rfl rfl rfl rfl

theorem wrFirqEn (m : Master) (ib : Bool) (d : Byte) : Statement (.wrFirqEn m ib d) :=
  fun _ => row_of_rw 0xFFFF#16 0#8 0xFCC5#16 rfl rfl rfl BitVec.and_zero

theorem rdIntStatus (m : Master) (ib : Bool) : Statement (.rdIntStatus m ib) :=
  fun _ => row_of_rw 0xFFFF#16 0xFF#8 0xFCC6#16 rfl rfl rfl rfl

theorem wrIntStatus (m : Master) (ib : Bool) (d : Byte) : Statement (.wrIntStatus m ib d) :=
  fun _ => row_of_rw 0xFFFF#16 0#8 0xFCC6#16 rfl rfl rfl BitVec.and_zero

theorem rdIntSwi (m : Master) (ib : Bool) : Statement (.rdIntSwi m ib) :=
  fun _ => row_of_rw 0xFFFF#16 0xFF#8 0xFCC7#16 rfl rfl rfl rfl

theorem wrIntSwi (m : Master) (ib : Bool) (d : Byte) : Statement (.wrIntSwi m ib d) :=
  fun _ => row_of_rw 0xFFFF#16 0#8 0xFCC7#16 rfl rfl rfl BitVec.and_zero

theorem rdIntLines (m : Master) (ib : Bool) : Statement (.rdIntLines m ib) :=
  fun _ => row_of_rw 0xFFFF#16 0xFF#8 0xFCC8#16 rfl rfl rfl rfl

theorem wrIntLines (m : Master) (ib : Bool) (d : Byte) : Statement (.wrIntLines m ib d) :=
  fun _ => row_of_rw 0xFFFF#16 0#8 0xFCC8#16 rfl rfl rfl BitVec.and_zero

theorem iack (m : Master) (ib : Bool) : Statement (.iack m ib) :=
  fun _ => row_of_rw 0xFFFF#16 0xFF#8 0#16 rfl rfl rfl rfl

theorem srcUpdate (mask val : Byte) : Statement (.srcUpdate mask val) := by
  intro h
  have h7 : mask.getLsbD 7 = false := by simpa [Instr.wellFormed] using h
  apply BitVec.eq_of_getLsbD_eq
  intro i hi
  simp only [encode, Instr.row, BitVec.getLsbD_and, getLsbD_encodeS]
  have hm : (0xFFFF8000#32).getLsbD i = decide (15 ≤ i) := by interval_cases i <;> rfl
  have hv : (0x60000000#32).getLsbD i = decide (i = 29 ∨ i = 30) := by interval_cases i <;> rfl
  rw [hm, hv]
  split_ifs with h1 h2
  · simp [show ¬ 15 ≤ i by omega, show i ≠ 29 by omega, show i ≠ 30 by omega]
  · by_cases h15 : i = 15
    · subst h15; rw [show 15 - 8 = 7 from rfl, h7]; rfl
    · simp [show ¬ 15 ≤ i by omega, show i ≠ 29 by omega, show i ≠ 30 by omega]
  · simp [show 15 ≤ i by omega]

theorem nmiIn (v : Bool) : Statement (.nmiIn v) :=
  by cases v <;> exact fun _ => rfl

theorem reset : Statement (.reset) :=
  fun _ => rfl

end EncodesTableRow

end Sys2Proof.Laws
end

