-- ==== Sys2Proof/Laws/Step.lean ====
section
/-! SUPPORT. What one step does, and an invariant carried from transactions to steps. -/

namespace Sys2Proof.Machine

/-- Everything a step that answers a next state can have done. -/
theorem step_cases {s t : State} (h : step s = .next t) :
    t = s ∨ ∃ w rest i, s.pending = w :: rest ∧ decode s.cfg w = .ok i ∧ exec i { s with pending := rest } = .next t := by
  unfold step State.takeWord at h
  cases hp : s.pending with
  | nil =>
    rw [hp] at h
    cases h
    exact .inl rfl
  | cons w rest =>
    simp only [hp] at h
    cases hd : decode s.cfg w with
    | error e => simp [hd] at h
    | ok i =>
      simp only [hd] at h
      exact .inr ⟨w, rest, i, rfl, hd, h⟩

/-- A property that does not look at the words waiting, and that every transaction keeps, is kept by every step. -/
theorem step_keeps {P : State → Prop} (hp : ∀ s l, P s → P { s with pending := l })
    (he : ∀ i s t, P s → exec i s = .next t → P t) {s t : State} (hs : P s) (h : step s = .next t) : P t := by
  rcases step_cases h with rfl | ⟨w, rest, i, -, -, hx⟩
  · exact hs
  · exact he i _ t (hp s rest hs) hx

end Sys2Proof.Machine
end

