-- ==== Sys2Proof/Tests/Slice0.lean ====
section
/-! SUPPORT. The model's own tests. Expected results are those of spec/95_test_vectors.md (V-L… and P…) and of the rules
named; the configuration is that file's (default parameters, ROM block k all 0xE0 + k, RAM all 0). After them, one witness for
every statement that has hypotheses. -/

namespace Sys2Proof.Tests

open Sys2Proof Sys2Proof.Machine

/-! ### Helpers -/

/-- The test ROM: every byte of block k is 0xE0 + k. -/
def rom : Image :=
  List.replicate 4096 0xE0#8 ++ List.replicate 4096 0xE1#8 ++ List.replicate 4096 0xE2#8 ++ List.replicate 4096 0xE3#8

/-- Power-on in the test configuration. -/
def on : State := State.powerOn (Config.standard false rom [])

/-- Power-on with `IGNORE_FIRST_NMI` true. -/
def onIgnoring : State := State.powerOn (Config.standard true rom [])

/-- Paging on, task 3 live and edited, its block 0 mapped to RAM block 5 (V-L1-2 after step 4). -/
def paged : State :=
  ({ on with pgEn := true, taskReq := 3, editTask := 3, pt := on.pt.set 3 ((on.pt.get 3).set 0 0x05#8) } : State).sync 0 15

/-- Power-on with a one-byte image, for comparing whole states. -/
def small : State := State.powerOn (Config.standard false [0xE0#8] [])

/-- Power-on with the ROM overlay on. -/
def overlay : State := ({ on with romOvl := true } : State).sync 0 15

/-- Source FDC_IRQ pending and enabled onto IRQ, the line up (V-L1-5 after step 3). -/
def floppy : State := { on with src := 0x02#8, irqEn := 0x02#8, irqLine := true, history := [.resetMark, .line .irq true] }

/-- Both CPUs halted (V-L2-53). -/
def bothHalted : State := { on with haltMain := true, history := [.resetMark, .line .haltMain true] }

/-- The DMA CPU released by the main CPU and waited for (V-L2-74 after its first word). -/
def yielding : State :=
  { on with haltDma := false, yieldTo := some .dma, history := [.resetMark, .line .haltDma false] }

/-- The events a transaction appends; `none` where it gives no next state. -/
def added (i : Instr) (s : State) : Option (List Event) :=
  match exec i s with
  | .next t => some (t.history.drop s.history.length)
  | _ => none

/-- A field of the next state; `none` where there is none. -/
def after {α : Type} (f : State → α) (i : Instr) (s : State) : Option α :=
  match exec i s with
  | .next t => some (f t)
  | _ => none

/-- A word is refused under the name given. -/
def refusedAs (w : Word) : Option Refusal :=
  match step (on.withFetchWord 32 w.toNat) with
  | .refused r => some r
  | _ => none

/-- The answer is a next state. -/
def goesOn (o : Answer) : Bool :=
  match o with
  | .next _ => true
  | _ => false

theorem exists_next {o : Answer} (h : goesOn o = true) : ∃ t, o = .next t := by
  cases o <;> first | exact ⟨_, rfl⟩ | cases h

/-- Well-formedness and decoding under the parameters of R7. -/
def wf (i : Instr) : Bool := i.wellFormed Config.launch

def dec (w : Word) : Except DecodeError Instr := decode Config.launch w

/-! ### WellFormed: an ill-formed term for each check -/

theorem test_wf_memory : wf (Instr.rdMem .main false 0xFC00#16) = false ∧
    wf (Instr.rdMem .main false 0xFEFF#16) = false ∧ wf (Instr.wrMem .dma false 0xFCC0#16 0#8) = false ∧
    wf (Instr.rdMem .main false 0xFBFF#16) = true ∧ wf (Instr.wrMem .main false 0xFF00#16 0#8) = true := by
  decide

theorem test_wf_external : wf (Instr.rdExtio .main false 0xFCC0#16) = false ∧
    wf (Instr.rdExtio .main false 0xFBFF#16) = false ∧ wf (Instr.wrExtio .main false 0xFCDF#16 0#8) = false ∧
    wf (Instr.wrExtio .main false 0xFF00#16 0#8) = false ∧ wf (Instr.rdExtio .main false 0xFCBF#16) = true ∧
    wf (Instr.wrExtio .main false 0xFCE0#16 0#8) = true := by decide

theorem test_wf_unimplemented : wf (Instr.rdUnimpl .main false 0xFCC8#16) = false ∧
    wf (Instr.rdUnimpl .main false 0xFCD0#16) = false ∧ wf (Instr.wrUnimpl .main false 0xFCC8#16 0#8) = false ∧
    wf (Instr.wrUnimpl .main false 0xFCD0#16 0#8) = false ∧ wf (Instr.rdUnimpl .main false 0xFCC9#16) = true ∧
    wf (Instr.wrUnimpl .main false 0xFCCF#16 0#8) = true := by decide

theorem test_wf_srcUpdate : wf (Instr.srcUpdate 0x80#8 0#8) = false ∧
    wf (Instr.srcUpdate 0x7F#8 0xFF#8) = true := by decide

/-! ### Decode: a word written out for every constructor (R80 to R85)

Format RW is KIND(3) M IB 000 ADDR(16) DATA(8), written bit by bit; the register reads and writes are in hexadecimal. -/

theorem test_decode_memory :
    dec 0b000_0_1_000_0001001000110100_00000000#32 = .ok (.rdMem .main true 0x1234#16) ∧
    dec 0b001_1_0_000_1111111100000000_10100101#32 = .ok (.wrMem .dma false 0xFF00#16 0xA5#8) ∧
    dec 0b000_0_0_000_1111110010111111_00000000#32 = .ok (.rdExtio .main false 0xFCBF#16) ∧
    dec 0b001_0_0_000_1111110011100000_00010010#32 = .ok (.wrExtio .main false 0xFCE0#16 0x12#8) ∧
    dec 0x00FEFF00#32 = .ok (.rdExtio .main false 0xFEFF#16) ∧
    dec 0x00FF0000#32 = .ok (.rdMem .main false 0xFF00#16) ∧
    dec 0x00FBFF00#32 = .ok (.rdMem .main false 0xFBFF#16) := by decide

theorem test_decode_mmu_registers :
    dec 0b000_0_0_000_1111110011000000_00000000#32 = .ok (.rdTaskSel .main false) ∧
    dec 0x20FCC003#32 = .ok (.wrTaskSel .main false 0x03#8) ∧ dec 0x10FCC100#32 = .ok (.rdEditTask .dma false) ∧
    dec 0x28FCC1F7#32 = .ok (.wrEditTask .main true 0xF7#8) ∧ dec 0x08FCC200#32 = .ok (.rdMmuCtrl .main true) ∧
    dec 0x20FCC201#32 = .ok (.wrMmuCtrl .main false 0x01#8) ∧ dec 0x00FCDF00#32 = .ok (.rdPage .main false 15#4) ∧
    dec 0x20FCD53F#32 = .ok (.wrPage .main false 5#4 0x3F#8) ∧ dec 0x00FCC900#32 = .ok (.rdUnimpl .main false 0xFCC9#16) ∧
    dec 0x20FCCF00#32 = .ok (.wrUnimpl .main false 0xFCCF#16 0x00#8) := by decide

theorem test_decode_interrupt_registers :
    dec 0b000_1_1_000_1111110011000011_00000000#32 = .ok (.rdCpuCtrl .dma true) ∧
    dec 0x30FCC300#32 = .ok (.wrCpuCtrl .dma false 0x00#8) ∧ dec 0x00FCC400#32 = .ok (.rdIrqEn .main false) ∧
    dec 0x20FCC418#32 = .ok (.wrIrqEn .main false 0x18#8) ∧ dec 0x00FCC500#32 = .ok (.rdFirqEn .main false) ∧
    dec 0x20FCC502#32 = .ok (.wrFirqEn .main false 0x02#8) ∧ dec 0x00FCC600#32 = .ok (.rdIntStatus .main false) ∧
    dec 0x20FCC6FF#32 = .ok (.wrIntStatus .main false 0xFF#8) ∧ dec 0x00FCC700#32 = .ok (.rdIntSwi .main false) ∧
    dec 0x20FCC7FF#32 = .ok (.wrIntSwi .main false 0xFF#8) ∧ dec 0x00FCC800#32 = .ok (.rdIntLines .main false) ∧
    dec 0x20FCC800#32 = .ok (.wrIntLines .main false 0x00#8) := by decide

theorem test_decode_sideband :
    dec 0b010_1_0_000_0000000000000000_00000000#32 = .ok (.iack .dma false) ∧
    dec 0b011_0000000000000_01111111_00000101#32 = .ok (.srcUpdate 0x7F#8 0x05#8) ∧
    dec 0b100_0000000000000000000000000000_1#32 = .ok (.nmiIn true) ∧ dec 0x80000000#32 = .ok (.nmiIn false) ∧
    dec 0b101_00000000000000000000000000000#32 = .ok .reset := by decide

/-- V-L2-3 to V-L2-12, and the KIND checked before the reserved fields (R97). -/
theorem test_refused : refusedAs 0xC0000000#32 = some .reservedKind ∧ refusedAs 0xE0000000#32 = some .reservedKind ∧
    refusedAs 0xC7FFFFFF#32 = some .reservedKind ∧ refusedAs 0x01000000#32 = some .nonZeroReservedField ∧
    refusedAs 0x24000001#32 = some .nonZeroReservedField ∧ refusedAs 0x00000001#32 = some .nonZeroReservedField ∧
    refusedAs 0x40000100#32 = some .nonZeroReservedField ∧ refusedAs 0x60008000#32 = some .nonZeroReservedField ∧
    refusedAs 0x60010000#32 = some .nonZeroReservedField ∧ refusedAs 0x80000002#32 = some .nonZeroReservedField ∧
    refusedAs 0xA0000001#32 = some .nonZeroReservedField := by decide

/-- The windows are the configuration's: at other places, its words decode by them. -/
def moved : Config :=
  { Config.standard false rom [] with ioBase := 0xE000#16, ioLimit := 0xE0FF#16, regBase := 0xE020#16, regLimit := 0xE03F#16 }

theorem test_decode_moved_windows : moved.Wf ∧ decode moved 0x20E02201#32 = .ok (.wrMmuCtrl .main false 0x01#8) ∧
    decode moved 0x00E03F00#32 = .ok (.rdPage .main false 15#4) ∧
    decode moved 0x00E02F00#32 = .ok (.rdUnimpl .main false 0xE02F#16) ∧
    decode moved 0x00E04000#32 = .ok (.rdExtio .main false 0xE040#16) ∧
    decode moved 0x20FCC201#32 = .ok (.wrMem .main false 0xFCC2#16 0x01#8) := by decide

/-- A configuration that the rules are not written for is refused: a register window that is not aligned, or not in the I/O
window; blocks that R8 excludes; sizes the words are not laid out for. -/
theorem test_config_wf :
    [{ moved with regBase := 0xE021#16, regLimit := 0xE040#16 }, { moved with ioLimit := 0xE03E#16 },
      { moved with romBlocks := 3 }, { moved with ramBlocks := 253 }, { moved with ramBlocks := 0 },
      { moved with blockBits := 11 }].all (fun c : Config => decide ¬ c.Wf) = true := by decide

/-- The table word of a row, as the host numbers it. -/
theorem test_decodeTableWord : decodeTableWord 32 0x20FCC201 = some (.wrMmuCtrl .main false 0x01#8) ∧
    decodeTableWord 32 0xC0000000 = none := by decide

/-! ### Translation -/

/-- V-L2-20 to V-L2-28. -/
theorem test_decode_pte :
    [0x00#8, 0x3F#8, 0x40#8, 0x7F#8, 0xFB#8, 0xFC#8, 0xFD#8, 0xFE#8, 0xFF#8].map (decodePte on.cfg) =
      [⟨.ram, 0, true⟩, ⟨.ram, 0x3F000, true⟩, ⟨.rom, 0, false⟩, ⟨.rom, 0x3000, false⟩, ⟨.rom, 0x3000, false⟩,
       ⟨.rom, 0, false⟩, ⟨.rom, 0x1000, false⟩, ⟨.rom, 0x2000, false⟩, ⟨.rom, 0x3000, false⟩] := by decide

/-- V-L2-29. -/
theorem test_overlay : [11#4, 12#4, 13#4, 14#4, 15#4].map overlay.route.get =
    [⟨.ram, 0xB000, true⟩, ⟨.rom, 0, false⟩, ⟨.rom, 0x1000, false⟩, ⟨.rom, 0x2000, false⟩, ⟨.rom, 0x3000, false⟩] := by
  decide

/-- V-L2-30: the fallback reaches the default row too. -/
theorem test_small_ram :
    [7#4, 8#4, 9#4, 10#4].map (State.powerOn { Config.standard false rom [] with ramBlocks := 8 }).route.get =
      [⟨.ram, 0x7000, true⟩, ⟨.rom, 0, false⟩, ⟨.rom, 0x1000, false⟩, ⟨.rom, 0x2000, false⟩] := by decide

/-! ### Memory transactions -/

/-- V-L1-1 (boot ROM at 0) and V-L2-73 (the held DMA CPU inside an instruction reads RAM block 1). -/
theorem test_rdMem : added (.rdMem .main false 0x0000#16) on = some [.reply .main 0xE0#8] ∧
    added (.rdMem .dma false 0x1000#16) on = some [.reply .dma 0x00#8] := by decide

/-- V-L2-72: the DMA CPU is held at reset. -/
theorem test_rdMem_stuck : after (fun t => (t.outcome, t.history)) (.rdMem .dma true 0x1000#16) on =
    some (.stuck, [.resetMark]) := by decide

/-- V-L1-2 step 5. -/
theorem test_wrMem : after (·.ram) (.wrMem .main false 0x0001#16 0x77#8) paged = some [(0x5001, 0x77#8)] := by decide

/-- V-L1-1 step 3: a write to ROM is discarded. -/
theorem test_wrMem_rom : after (·.ram) (.wrMem .main false 0x0000#16 0x55#8) on = some [] := by decide

/-- V-L2-40: the read is recorded once, and the byte recorded is the byte replied. -/
theorem test_rdExtio : added (.rdExtio .main false 0xFC00#16) on =
    some [.extRd 0xFC00#16 (Config.extByte 0), .reply .main (Config.extByte 0)] := by rfl

/-- V-L2-42: the I/O window is above the overlay. -/
theorem test_wrExtio : added (.wrExtio .main false 0xFD00#16 0x12#8) overlay = some [.extWr 0xFD00#16 0x12#8] := by decide

/-! ### Translation-control registers -/

theorem test_rdTaskSel : added (.rdTaskSel .main false) paged = some [.reply .main 0x03#8] := by decide

/-- V-L2-43: reserved bits dropped, routing unchanged with paging disabled. -/
theorem test_wrTaskSel : after (fun t => (t.taskReq, t.live, decide (t.route = on.route))) (.wrTaskSel .main false 0xF3#8) on =
    some (3#4, 16, true) := by decide

theorem test_rdEditTask : added (.rdEditTask .main false) paged = some [.reply .main 0x03#8] := by decide

/-- V-L2-44. -/
theorem test_wrEditTask : after (·.editTask) (.wrEditTask .main false 0xF7#8) on = some 7#4 := by decide

/-- V-L2-45. -/
theorem test_rdMmuCtrl : added (.rdMmuCtrl .main false) { on with pgEn := true, romOvl := true } =
    some [.reply .main 0x03#8] := by decide

/-- V-L2-46: enabling paging makes the selected row live. -/
theorem test_wrMmuCtrl : after (fun t => (t.pgEn, t.romOvl, t.route.get 0)) (.wrMmuCtrl .main false 0x01#8)
    { on with taskReq := 5, pt := on.pt.set 5 ((on.pt.get 5).set 0 0x07#8) } =
      some (true, false, ⟨.ram, 0x7000, true⟩) := by decide

/-- V-L1-3 step 5 and V-L2-49. -/
theorem test_rdPage : added (.rdPage .main false 0#4) on = some [.reply .main 0xFC#8] ∧
    added (.rdPage .main false 0#4) paged = some [.reply .main 0x05#8] := by decide

/-- V-L2-48: the edited row is live, so exactly that block is synced. -/
theorem test_wrPage_live : after (fun t => (t.pageByte 4, t.route.get 4, t.route.get 5)) (.wrPage .main false 4#4 0x30#8) paged =
    some (0x30#8, ⟨.ram, 0x30000, true⟩, ⟨.ram, 0x5000, true⟩) := by decide

/-- V-L2-47: the edited row is not live. -/
theorem test_wrPage_not_live : after (fun t => (t.pageByte 4, t.route.get 4)) (.wrPage .main false 4#4 0x30#8)
    { paged with editTask := 1 } = some (0x30#8, ⟨.ram, 0x4000, true⟩) := by decide

/-- V-L2-50, V-L2-51. -/
theorem test_unimpl : added (.rdUnimpl .main false 0xFCC9#16) on = some [.reply .main 0xFF#8] ∧
    after (fun t => decide (t = small)) (.wrUnimpl .main false 0xFCCA#16 0x12#8) small = some true := by decide

/-! ### Interrupt and CPU-control registers -/

/-- V-L2-52, V-L2-53. -/
theorem test_rdCpuCtrl : added (.rdCpuCtrl .main false) on = some [.reply .main 0x80#8] := by decide

theorem test_wrCpuCtrl : added (.wrCpuCtrl .main false 0xFF#8) on = some [.line .haltMain true, .nmiPulse] ∧
    after (·.yieldTo) (.wrCpuCtrl .main false 0xFF#8) on = some none := by decide

/-- P4 line 7: one write halts the writer and releases the other CPU. -/
theorem test_wrCpuCtrl_handoff :
    added (.wrCpuCtrl .dma true 0x80#8) { on with haltDma := false, haltMain := true } =
      some [.line .haltDma true, .line .haltMain false] ∧
    after (·.yieldTo) (.wrCpuCtrl .dma true 0x80#8) { on with haltDma := false, haltMain := true } =
      some (some .main) := by decide

theorem test_rdIrqEn : added (.rdIrqEn .main false) floppy = some [.reply .main 0x02#8] := by decide

/-- V-L1-5 steps 3 and 5. -/
theorem test_wrIrqEn : added (.wrIrqEn .main false 0x02#8) { on with src := 0x02#8 } = some [.line .irq true] ∧
    added (.wrIrqEn .main false 0x00#8) floppy = some [.line .irq false] := by decide

theorem test_rdFirqEn : added (.rdFirqEn .main false) { on with firqEn := 0x80#8 } = some [.reply .main 0x80#8] := by decide

/-- R158's example. -/
theorem test_wrFirqEn : added (.wrFirqEn .main false 0x08#8) { on with src := 0x08#8 } = some [.line .firq true] := by decide

/-- P3 line 7, and V-L2-32: only the latched sources are cleared. -/
theorem test_rdIntStatus : added (.rdIntStatus .main false) { floppy with src := 0x18#8, irqEn := 0x10#8 } =
      some [.reply .main 0x18#8, .line .irq false] ∧
    after (·.src) (.rdIntStatus .main false) { on with src := 0x7F#8 } = some 0x67#8 := by decide

/-- V-L2-62. -/
theorem test_wrIntStatus : after (·.src) (.wrIntStatus .main false 0xFF#8) { on with src := 0x18#8 } = some 0x18#8 := by decide

/-- V-L2-59. -/
theorem test_rdIntSwi : added (.rdIntSwi .main false) { on with src := 0x80#8 } = some [.reply .main 0x01#8] := by decide

theorem test_wrIntSwi : added (.wrIntSwi .main false 0xFF#8) { on with firqEn := 0x80#8 } = some [.line .firq true] ∧
    after (·.src) (.wrIntSwi .main false 0xFE#8) { on with src := 0xFF#8 } = some 0x7F#8 := by decide

/-- V-L1-5 steps 2 and 4. -/
theorem test_rdIntLines : added (.rdIntLines .main false) on = some [.reply .main 0x08#8] ∧
    added (.rdIntLines .main false) floppy = some [.reply .main 0x09#8] := by decide

/-- V-L2-63. -/
theorem test_wrIntLines : after (fun t => decide (t = small)) (.wrIntLines .main false 0x00#8) small = some true := by decide

/-! ### Sideband transactions -/

/-- V-L2-65. -/
theorem test_iack : added (.iack .main false) floppy = some [.reply .main 0xFF#8] ∧
    after (fun t => (t.src, t.irqLine)) (.iack .main false) floppy = some (0x02#8, true) := by decide

/-- V-L2-61 (one source on both lines, IRQ first), V-L2-68 (a latched source ignores a 0). -/
theorem test_srcUpdate : added (.srcUpdate 0x08#8 0x08#8) { on with irqEn := 0x08#8, firqEn := 0x08#8 } =
      some [.line .irq true, .line .firq true] ∧
    after (·.src) (.srcUpdate 0x7F#8 0x00#8) { on with src := 0xFF#8 } = some 0x98#8 := by decide

/-- V-L2-69 (shared `nmi_last`), V-L2-70. -/
theorem test_nmiIn : added (.nmiIn true) on = some [.nmiPulse] ∧ added (.nmiIn true) { on with nmiLast := true } = some [] ∧
    added (.nmiIn true) onIgnoring = some [] ∧ after (·.firstNmiArmed) (.nmiIn true) onIgnoring = some false := by decide

/-- V-L2-36 (RAM kept), V-L2-71 (no LINE event). -/
theorem test_reset : added .reset floppy = some [.resetMark] ∧
    after (fun t => (t.irqLine, t.ram, t.haltMain)) .reset { floppy with ram := [(0x1234, 0x5C#8)], haltMain := true } =
      some (false, [(0x1234, 0x5C#8)], false) := by decide

/-- P1 line 1: the first word after power-on. -/
theorem test_first_word : (match step (on.withFetchWord 32 0x08000000) with
    | .next t => some t.history
    | _ => none) = some [.resetMark, .reply .main 0xE0#8] := by decide

/-! ### Witnesses: every statement with hypotheses is about something -/

theorem on_wf : on.cfg.Wf := by decide

theorem on_coherent : on.Coherent := by
  intro b
  rcases Vec16.nib_cases b with h | h | h | h | h | h | h | h | h | h | h | h | h | h | h | h <;> subst h <;> decide

theorem on_inv : on.Inv :=
  ⟨on_wf, rfl, (fun c h => by cases h), on_coherent, by unfold State.LineLaw; decide, (fun c h => by cases h), id⟩

theorem paged_coherent : paged.Coherent := State.sync_coherent

theorem overlay_coherent : overlay.Coherent := State.sync_coherent

/-- Admission: the main CPU everywhere at power-on, the DMA CPU inside an instruction only. -/
theorem witness_Admits : on.Admits .main true ∧ on.Admits .main false ∧ on.Admits .dma false ∧ ¬ on.Admits .dma true ∧
    yielding.Admits .dma true ∧ ¬ yielding.Admits .main true := by
  unfold State.Admits
  refine ⟨fun _ => ⟨rfl, fun x h => ?_⟩, fun h => ?_, fun h => ?_, fun h => ?_, fun _ => ⟨rfl, fun x h => ?_⟩, fun h => ?_⟩
  · cases h
  · cases h
  · cases h
  · exact absurd (h rfl).1 (by decide)
  · cases h; rfl
  · exact absurd ((h rfl).2 .dma rfl) (by decide)

theorem witness_DecodeInvertsEncode : on.cfg.Wf ∧ (Instr.rdMem .main true 0xFBFF#16).wellFormed on.cfg = true ∧
    (Instr.wrExtio .dma false 0xFEFF#16 0xFF#8).wellFormed on.cfg = true ∧
    (Instr.srcUpdate 0x7F#8 0xFF#8).wellFormed on.cfg = true := by decide

theorem witness_EncodeInvertsDecode : on.cfg.Wf ∧ decode on.cfg 0xA0000000#32 = .ok .reset := by decide

theorem witness_PresentedWordIsPerformed : on.cfg.Wf ∧ (Instr.rdPage .dma false 7#4).wellFormed on.cfg = true := by decide

theorem witness_MalformedWordsRefused :
    (∃ rest, { on with pending := [0xC0000000#32] }.pending = 0xC0000000#32 :: rest) ∧
    decode on.cfg 0xC0000000#32 = .error .reservedKind ∧ decode on.cfg 0x60008000#32 = .error .nonZeroReservedField := by
  exact ⟨⟨[], rfl⟩, by decide, by decide⟩

theorem witness_StepRunsPresentedTransaction :
    ({ on with pending := [0x20FCC201#32] } : State).pending = [0x20FCC201#32] ∧
    decode on.cfg 0x20FCC201#32 = .ok (.wrMmuCtrl .main false 0x01#8) ∧ on.pending = [] := by decide

theorem witness_StuckExactlyWhenNotAdmitted : ¬ on.AdmitsInstr (.rdMem .dma true 0#16) ∧ on.AdmitsInstr (.iack .main true) ∧
    (∃ t, exec (.iack .main true) on = .next t) ∧ Instr.presenter .reset = none := by
  refine ⟨fun h => witness_Admits.2.2.2.1 (h .dma true rfl), fun m ib h => ?_, exists_next (by decide), rfl⟩
  cases h; exact witness_Admits.1

theorem witness_EveryTransactionCompletes : on.Inv ∧ (Instr.wrMem .main false 0xFF00#16 0#8).wellFormed on.cfg = true :=
  ⟨on_inv, by decide⟩

theorem witness_LiveTaskFollowsPaging : on.cfg.Wf ∧ on.pgEn = false ∧ (0x01#8).getLsbD 0 = true := by decide

theorem witness_ResolvePriority : overlay.cfg.Wf ∧ (5 : Fin 17).val = (5#4).toNat ∧ overlay.romOvl = true ∧
    overlay.cfg.ovlFirst ≤ (12#4).toNat ∧ ¬ overlay.cfg.ovlFirst ≤ (11#4).toNat := by decide

theorem witness_PteDecode : (0x3F#8).toNat < on.cfg.ramBlocks ∧ on.cfg.ramBlocks ≤ (0x40#8).toNat ∧ on.cfg.Wf ∧
    on.cfg.romFirst ≤ (0xFC#8).toNat := by decide

theorem witness_RouteOfAddress : on.cfg.Wf ∧ (on.cfg.ioBase ≤ 0xFC00#16 ∧ 0xFC00#16 ≤ on.cfg.ioLimit) ∧
    (on.cfg.ioBase ≤ 0xFEFF#16 ∧ 0xFEFF#16 ≤ on.cfg.ioLimit) ∧ (0xFBFF#16 < on.cfg.ioBase ∨ on.cfg.ioLimit < 0xFBFF#16) ∧
    (0xFF00#16 < on.cfg.ioBase ∨ on.cfg.ioLimit < 0xFF00#16) := by decide

theorem witness_RouteStaysInBounds : on.cfg.Wf ∧ on.Coherent ∧ (on.routeOf 0xFFFF#16).region = .ram ∧
    (on.routeOf 0x0FFF#16).region = .rom ∧ on.cfg.ramBlocks ≤ (on.ptAt 16 0#4).toNat :=
  ⟨on_wf, on_coherent, by decide, by decide, by decide⟩

theorem witness_CoherenceKept : paged.Coherent ∧ ∃ t, exec (.wrPage .main false 0#4 0x7F#8) paged = .next t :=
  ⟨paged_coherent, exists_next (by decide)⟩

/-- The three branches of the byte read: overlay, RAM entry, ROM entry. -/
theorem witness_RdMemReplies : (0xFBFF#16 < overlay.cfg.ioBase ∨ overlay.cfg.ioLimit < 0xFBFF#16) ∧
    (0xFF00#16 < on.cfg.ioBase ∨ on.cfg.ioLimit < 0xFF00#16) ∧ overlay.cfg.Wf ∧ overlay.Coherent ∧
    overlay.Admits .main false ∧ overlay.romOvl = true ∧ overlay.cfg.ovlFirst ≤ ((0xC000#16).extractLsb' 12 4).toNat ∧
    (on.ptAt on.live ((0xFF00#16).extractLsb' 12 4)).toNat < on.cfg.ramBlocks ∧
    ¬ (on.ptAt on.live ((0x0000#16).extractLsb' 12 4)).toNat < on.cfg.ramBlocks :=
  ⟨by decide, by decide, by decide, overlay_coherent, State.admits_of_not_boundary _, rfl, by decide, by decide, by decide⟩

theorem witness_WrMemStores : on.cfg.Wf ∧ (0xFFFF#16 < on.cfg.ioBase ∨ on.cfg.ioLimit < 0xFFFF#16) ∧
    on.Coherent ∧ on.Admits .main true ∧ (on.routeOf 0xFFFF#16).writable = true ∧
    (on.routeOf 0x0000#16).writable = false := ⟨on_wf, by decide, on_coherent, witness_Admits.1, by decide, by decide⟩

/-- Blocks 0 and 5 of the state `paged` are the same RAM block. -/
theorem witness_WriteThenReadAlias : paged.cfg.Wf ∧ paged.Coherent ∧
    (0x0001#16 < paged.cfg.ioBase ∨ paged.cfg.ioLimit < 0x0001#16) ∧
    (paged.routeOf 0x0001#16).writable = true ∧ paged.routeOf 0x5001#16 = paged.routeOf 0x0001#16 ∧
    paged.routeOf 0x5002#16 ≠ paged.routeOf 0x0001#16 :=
  ⟨by decide, paged_coherent, by decide, by decide, by decide, by decide⟩

theorem witness_ExternalIoRecorded : on.Admits .main true ∧ (on.cfg.ioBase ≤ 0xFCBF#16 ∧
      0xFCBF#16 ≤ on.cfg.ioLimit ∧ (0xFCBF#16 < on.cfg.regBase ∨ on.cfg.regLimit < 0xFCBF#16)) ∧
    (on.cfg.ioBase ≤ 0xFCE0#16 ∧ 0xFCE0#16 ≤ on.cfg.ioLimit ∧
      (0xFCE0#16 < on.cfg.regBase ∨ on.cfg.regLimit < 0xFCE0#16)) :=
  ⟨witness_Admits.1, by decide, by decide⟩

theorem witness_UnimplementedOffsets : (0xFCC9#16 ≤ 0xFCC9#16 ∧ 0xFCC9#16 ≤ 0xFCCF#16) ∧
    (0xFCC9#16 ≤ 0xFCCF#16 ∧ 0xFCCF#16 ≤ 0xFCCF#16) ∧ on.Admits .main true := ⟨by decide, by decide, witness_Admits.1⟩

theorem witness_WrTaskSelEffect : on.Admits .main true ∧ on.pgEn = false ∧ on.Coherent ∧
    paged.taskReq = (0xF3#8).extractLsb' 0 4 ∧ paged.Coherent :=
  ⟨witness_Admits.1, rfl, on_coherent, by decide, paged_coherent⟩

theorem witness_WrMmuCtrlEffect : paged.Admits .main false ∧ paged.pgEn = (0xFD#8).getLsbD 0 ∧
    paged.romOvl = (0xFD#8).getLsbD 1 ∧ paged.Coherent :=
  ⟨State.admits_of_not_boundary _, by decide, by decide, paged_coherent⟩

/-- Both cases of the sync condition of WR_PAGE. -/
theorem witness_WrPageEffect : paged.Admits .main false ∧ (paged.pgEn = true ∧ paged.editTask = paged.taskReq) ∧
    ¬ (on.pgEn = true ∧ on.editTask = on.taskReq) := ⟨State.admits_of_not_boundary _, by decide, by decide⟩

theorem witness_ConfigureLaw : paged.cfg.Wf ∧ paged.Coherent ∧ paged.pgEn = true ∧
    paged.taskReq = (0xF3#8).extractLsb' 0 4 ∧ (0xFBFF#16 < paged.cfg.ioBase ∨ paged.cfg.ioLimit < 0xFBFF#16) ∧
    ¬ (paged.romOvl = true ∧ paged.cfg.ovlFirst ≤ ((0xFBFF#16).extractLsb' 12 4).toNat) :=
  ⟨by decide, paged_coherent, by decide, by decide, by decide, by decide⟩

/-- A write that releases a CPU, one that halts one, and edges with the guard armed and not. -/
theorem witness_WrCpuCtrlEffect : on.Admits .main true ∧ (0x00#8).getLsbD 7 ≠ on.haltDma ∧ Master.dma ≠ .main ∧
    on.cfg.yieldOnUnhalt = true ∧ (0x40#8).getLsbD 6 ≠ on.haltMain ∧
    NmiOccurs on.cfg.nmiEdge on.nmiLast ((0x20#8).getLsbD 5) ∧ ¬ NmiOccurs on.cfg.nmiEdge on.nmiLast ((0x00#8).getLsbD 5) :=
  ⟨witness_Admits.1, by decide, by decide, rfl, by decide, by simp [NmiOccurs, on, State.powerOn, Config.standard],
    by simp [NmiOccurs, on, State.powerOn, Config.standard]⟩

theorem witness_EnableMaskWrites : floppy.Admits .main false ∧ floppy.LineLaw :=
  ⟨State.admits_of_not_boundary _, by unfold State.LineLaw; decide⟩

theorem witness_SrcUpdateEffect : (0x60000202#32).extractLsb' 29 3 = 0b011#3 ∧ (0x60000202#32).extractLsb' 16 13 = 0#13 ∧
    (0x60000202#32).getLsbD 15 = false := by decide

theorem witness_NmiInEffect : ¬ NmiOccurs on.cfg.nmiEdge on.nmiLast false ∧
    (NmiOccurs onIgnoring.cfg.nmiEdge onIgnoring.nmiLast true ∧ onIgnoring.firstNmiArmed = true) ∧
    (NmiOccurs on.cfg.nmiEdge on.nmiLast true ∧ on.firstNmiArmed = false) := by
  simp [NmiOccurs, on, onIgnoring, State.powerOn, Config.standard]

theorem witness_ResetEffect : on.cfg.Wf := on_wf

/-- TranslationStateWriters, InterruptStateWriters, HaltAndNmiStateWriters, OnlyWrMemStores. -/
theorem witness_Writers : (∃ t, exec (.wrPage .main false 0#4 0x07#8) paged = .next t) ∧
    (∃ t, exec (.wrIntSwi .main false 0x01#8) on = .next t) ∧ (∃ t, exec (.wrCpuCtrl .main false 0x20#8) on = .next t) ∧
    (∃ t, exec (.wrMem .main false 0x0001#16 0x77#8) paged = .next t) :=
  ⟨exists_next (by decide), exists_next (by decide), exists_next (by decide), exists_next (by decide)⟩

theorem witness_EqualRamIsEqualData : on.Inv ∧ ({ on with src := 0x01#8 } : State).Inv ∧
    ∀ o, ({ on with src := 0x01#8 } : State).ramByte o = on.ramByte o :=
  ⟨on_inv, ⟨on_wf, rfl, (fun c h => by cases h), on_coherent, by unfold State.LineLaw; decide, (fun c h => by cases h), id⟩,
    fun _ => rfl⟩

theorem witness_HistoryOnlyGrows : ∃ t, step (on.withFetchWord 32 0x80000001) = .next t := exists_next (by decide)

theorem witness_RoutingAndInterruptsAreSeparate :
    Instr.wrPage .main false 0#4 0x07#8 ∈ [Instr.wrTaskSel .main false 0x07#8, .wrEditTask .main false 0x07#8,
      .wrMmuCtrl .main false 0x07#8, .wrPage .main false 0#4 0x07#8] ∧
    (∃ t, exec (.wrPage .main false 0#4 0x07#8) on = .next t) ∧ ∃ t, exec (.wrCpuCtrl .main false 0x07#8) on = .next t :=
  ⟨by decide, exists_next (by decide), exists_next (by decide)⟩

theorem witness_StepKeepsInvariant : (on.withFetchWord 32 0x60000202).Inv ∧ ∃ t, step (on.withFetchWord 32 0x60000202) = .next t :=
  ⟨⟨on_wf, rfl, (fun c h => by cases h), on_coherent, by unfold State.LineLaw; decide, (fun c h => by cases h), id⟩,
    exists_next (by decide)⟩

theorem witness_StepKeepsLinesAndHistoryExact : (floppy.withFetchWord 32 0x20FCC400).LineLaw ∧
    (floppy.withFetchWord 32 0x20FCC400).HistoryExact ∧ ∃ t, step (floppy.withFetchWord 32 0x20FCC400) = .next t :=
  ⟨by unfold State.LineLaw; decide, by unfold State.HistoryExact; decide, exists_next (by decide)⟩

theorem witness_PowerOnState : (Config.standard true rom []).Wf ∧ 0x0FFF#16 < 0x1000#16 ∧
    0x0FFF#16 < (Config.standard true rom []).ioBase ∧ 15#4 ≠ 0#4 ∧
    (15#4).toNat < (Config.standard true rom []).ramBlocks := by decide

theorem witness_FirstNmiAfterReset : on.cfg.nmiEdge = .rising ∧ onIgnoring.cfg.nmiEdge = .rising := by decide

/-- An opcode fetch of each CPU, a source update and an NMI edge are waiting. -/
theorem witness_BothHaltedUntilReset :
    let s : State := { bothHalted with pending := [0x08000000#32, 0x60000101#32, 0x80000001#32, 0x18000000#32] }
    s.haltMain = true ∧ s.haltDma = true ∧
      ∀ w ∈ s.pending, ∃ i, decode s.cfg w = .ok i ∧ i ≠ .reset ∧ ∀ m ib, i.presenter = some (m, ib) → ib = true := by
  refine ⟨rfl, rfl, fun w hw => ?_⟩
  simp only [List.mem_cons, List.not_mem_nil, or_false] at hw
  rcases hw with rfl | rfl | rfl | rfl
  · exact ⟨.rdMem .main true 0#16, by decide, by decide, fun m ib h => by cases h; rfl⟩
  · exact ⟨.srcUpdate 0x01#8 0x01#8, by decide, by decide, fun m ib h => by cases h⟩
  · exact ⟨.nmiIn true, by decide, by decide, fun m ib h => by cases h⟩
  · exact ⟨.rdMem .dma true 0#16, by decide, by decide, fun m ib h => by cases h; rfl⟩

theorem witness_YieldUntilReleasedCpuBegins : yielding.yieldTo = some .dma ∧
    (Instr.rdMem .main true 0#16).presenter = some (.main, true) ∧ Master.main ≠ .dma ∧ yielding.halt .dma = false ∧
    (∃ t, exec (.rdMem .dma true 0x1000#16) yielding = .next t) ∧
    after (·.yieldTo) (.rdMem .dma true 0x1000#16) yielding = some none :=
  ⟨rfl, rfl, by decide, rfl, exists_next (by decide), by decide⟩

theorem witness_SavedStateDeterminesRoutingAndLines : on.Inv ∧ ({ on with haltMain := true } : State).Inv ∧
    on.SameSaved { on with haltMain := true } :=
  ⟨on_inv, ⟨on_wf, rfl, (fun c h => by cases h), on_coherent, by unfold State.LineLaw; decide, (fun c h => by cases h), id⟩,
    rfl, rfl, rfl, rfl, rfl, rfl, rfl, rfl⟩

theorem witness_MastersShareTheBlock : (fun m => Instr.wrIntSwi m false 0x01#8) ∈
    [fun m => Instr.wrMem m false 0#16 0x01#8, fun m => .wrTaskSel m false 0x01#8, fun m => .wrEditTask m false 0x01#8,
      fun m => .wrMmuCtrl m false 0x01#8, fun m => .wrPage m false 0#4 0x01#8, fun m => .wrIrqEn m false 0x01#8,
      fun m => .wrFirqEn m false 0x01#8, fun m => .wrIntSwi m false 0x01#8] := by simp

end Sys2Proof.Tests
end

section
/-! The parameters of the machine (R7, R8) and where its registers stand (R85). -/

namespace Sys2Proof.Machine

/-- Under R7's register window the offset `a - $FCC0` is taken from `$FCC0` itself, so R85's addresses are the machine's. -/
theorem registerAt_standard (ign : Bool) (rom ram : Image) (a : Addr) : registerAt (Config.standard ign rom ram) a = a :=
  calc registerAt (Config.standard ign rom ram) a
    _ = 0xFCC0#16 + (a - 0xFCC0#16) := rfl
    _ = a := add_sub_cancel _ a

/-- Settles O56: the value column is read off `Config.standard`, the derived parameters follow from the sizes, and the
constraints are `Config.standard_wf`. -/
theorem launchParameters : Obligations.LaunchParameters := by
  unfold Obligations.LaunchParameters
  refine ⟨⟨_, _, _, show State.reset.cfg = Config.launch from rfl⟩, fun ign rom ram => ?_⟩
  have hwf : (Config.standard ign rom ram).Wf := Config.standard_wf ign rom ram
  have hblock : (Config.standard ign rom ram).blockSize = 4096 := blockSize_eq hwf.1
  have hphys : (Config.standard ign rom ram).physBlocks = 2 ^ 8 := rfl
  have hrom : (Config.standard ign rom ram).romFirst = 256 - 4 := romFirst_eq hwf.1
  exact ⟨rfl, rfl, hblock, rfl, rfl, rfl, rfl, rfl, hphys, rfl, rfl, hrom, rfl, rfl, rfl, rfl, rfl, rfl, rfl, rfl, rfl,
    rfl, rfl, rfl, rfl, rfl, rfl, rfl, hwf, registerAt_standard ign rom ram⟩

end Sys2Proof.Machine
end

section
/-! What the rule of each transaction can do to the state, said once: most only record events, and each of the others writes
by one shared operation. The frames of the state variables (R25 to R40) are read off it. -/

namespace Sys2Proof.Machine

/-- The changes a transaction's rule can make: `Effect s i t` when the rule of `i` may take `s` to `t`. The transactions that
write no state of the block but the history, and the draws an external read uses up, are all under `records`. -/
inductive Effect (s : State) : Instr → State → Prop where
  | records (i : Instr) (es : List Event) (n : Nat) :
      Effect s i { s with history := s.history ++ es, drawIndex := n }
  | stores (m : Master) (ib : Bool) (a : Addr) (d : Byte) (hr : (s.routeOf a).region = .ram)
      (hw : (s.routeOf a).writable = true) : Effect s (.wrMem m ib a d) (s.withRamByte (s.routeOf a).base d)
  | selectsTask (m : Master) (ib : Bool) (d : Byte) :
      Effect s (.wrTaskSel m ib d) (({ s with taskReq := taskField d } : State).sync 0 15)
  | selectsEdit (m : Master) (ib : Bool) (d : Byte) : Effect s (.wrEditTask m ib d) { s with editTask := taskField d }
  | setsMode (m : Master) (ib : Bool) (d : Byte) :
      Effect s (.wrMmuCtrl m ib d) (({ s with pgEn := pgEnField d, romOvl := romOvlField d } : State).sync 0 15)
  | editsLivePage (m : Master) (ib : Bool) (n : Nib) (d : Byte) (hp : s.pgEn = true) (he : s.editTask = s.taskReq) :
      Effect s (.wrPage m ib n d) ((s.withPage n d).sync n n)
  | editsPage (m : Master) (ib : Bool) (n : Nib) (d : Byte) : Effect s (.wrPage m ib n d) (s.withPage n d)
  | controlsCpus (m : Master) (ib : Bool) (d : Byte) :
      Effect s (.wrCpuCtrl m ib d) (({ (s.setHalt .dma (dmaHaltField d) m).setHalt .main (mainHaltField d) m with
        nmiCtl := nmiTrigField d } : State).recalcNmi (nmiTrigField d))
  | masksIrq (m : Master) (ib : Bool) (d : Byte) : Effect s (.wrIrqEn m ib d) ({ s with irqEn := d } : State).recalc
  | masksFirq (m : Master) (ib : Bool) (d : Byte) : Effect s (.wrFirqEn m ib d) ({ s with firqEn := d } : State).recalc
  | clearsLatched (m : Master) (ib : Bool) : Effect s (.rdIntStatus m ib)
      ({ s.reply m s.src with src := srcAfterStatusRead s.cfg.latchedMask s.src } : State).recalc
  | setsSwi (m : Master) (ib : Bool) (d : Byte) :
      Effect s (.wrIntSwi m ib d) ({ s with src := srcWithSwi s.src (swiField d) } : State).recalc
  | updatesSources (mask val : Byte) : Effect s (.srcUpdate mask val)
      ({ s with src := srcAfterUpdate s.cfg.latchedMask s.src mask val } : State).recalc
  | presentsNmi (v : Bool) : Effect s (.nmiIn v) (s.recalcNmi v)
  | resets : Effect s .reset s.resetBlock

variable {i : Instr} {s t : State}

/-- A rule that changes nothing is a rule that records no event. -/
theorem Effect.nothing (i : Instr) (s : State) : Effect s i s := by simpa using Effect.records (s := s) i [] s.drawIndex

/-- A rule that answers a next state has one of the effects. -/
theorem effect_of_body (h : body i s = .next t) : Effect s i t := by
  cases i with
  | rdMem m ib a =>
    simp only [body] at h
    split at h
    · cases h; exact .records _ _ _
    · cases h
  | wrMem m ib a d =>
    simp only [body] at h
    split at h
    · cases h
      rename_i hx
      rcases State.writeRoute_cases hx with rfl | ⟨hr, hw, -, rfl⟩
      · exact .nothing _ _
      · exact .stores m ib a d hr hw
    · cases h
  | rdExtio m ib a =>
    cases h
    simpa [State.reply, State.emit, State.drawn] using Effect.records (s := s) (.rdExtio m ib a) _ _
  | wrPage m ib n d =>
    cases h
    split
    · rename_i hl; exact .editsLivePage m ib n d hl.1 hl.2
    · exact .editsPage m ib n d
  | wrTaskSel m ib d => cases h; exact .selectsTask m ib d
  | wrEditTask m ib d => cases h; exact .selectsEdit m ib d
  | wrMmuCtrl m ib d => cases h; exact .setsMode m ib d
  | wrCpuCtrl m ib d => cases h; exact .controlsCpus m ib d
  | wrIrqEn m ib d => cases h; exact .masksIrq m ib d
  | wrFirqEn m ib d => cases h; exact .masksFirq m ib d
  | rdIntStatus m ib => cases h; exact .clearsLatched m ib
  | wrIntSwi m ib d => cases h; exact .setsSwi m ib d
  | srcUpdate mask val => cases h; exact .updatesSources mask val
  | nmiIn v => cases h; exact .presentsNmi v
  | reset => cases h; exact .resets
  | wrUnimpl | wrIntStatus | wrIntLines => cases h; exact .nothing _ _
  | _ => cases h; exact .records _ _ _

/-- Everything a transaction that answers a next state can have done: nothing (it was stuck), or an effect of its rule, after
the CPU waited for may have ended the wait (`exec_cases`). -/
theorem exec_effect (h : exec i s = .next t) : t = { s with outcome := .stuck } ∨
    ∃ y, Effect { s with yieldTo := y, outcome := .done } i t ∧
      (y = s.yieldTo ∨ ∃ m, s.yieldTo = some m ∧ y = none ∧ i.presenter = some (m, true)) := by
  rcases exec_cases h with rfl | ⟨y, hb, hy⟩
  · exact .inl rfl
  · exact .inr ⟨y, effect_of_body hb, hy⟩

/-! ### The translation state (R25, R27 to R32) -/

theorem Effect.taskReq (h : Effect s i t) : t.taskReq = s.taskReq ∨ (∃ m ib d, i = .wrTaskSel m ib d) ∨ i = .reset := by
  cases h with
  | selectsTask m ib d => exact .inr (.inl ⟨m, ib, d, rfl⟩)
  | resets => exact .inr (.inr rfl)
  | _ => left; simp

theorem Effect.editTask (h : Effect s i t) :
    t.editTask = s.editTask ∨ (∃ m ib d, i = .wrEditTask m ib d) ∨ i = .reset := by
  cases h with
  | selectsEdit m ib d => exact .inr (.inl ⟨m, ib, d, rfl⟩)
  | resets => exact .inr (.inr rfl)
  | _ => left; simp

theorem Effect.modeBits (h : Effect s i t) :
    (t.pgEn = s.pgEn ∧ t.romOvl = s.romOvl) ∨ (∃ m ib d, i = .wrMmuCtrl m ib d) ∨ i = .reset := by
  cases h with
  | setsMode m ib d => exact .inr (.inl ⟨m, ib, d, rfl⟩)
  | resets => exact .inr (.inr rfl)
  | _ => left; simp

/-- A page-register write stores to its own entry of the row under edit and to no other. -/
theorem State.withPage_get_cases (s : State) (n k b : Nib) (d : Byte) :
    ((s.withPage n d).pt.get k).get b = (s.pt.get k).get b ∨ (b = n ∧ k = s.editTask) := by
  rw [State.withPage_get]
  split
  · rename_i h; exact .inr h.symm
  · exact .inl rfl

theorem Effect.pageTable (h : Effect s i t) (k b : Nib) : (t.pt.get k).get b = (s.pt.get k).get b ∨
    (∃ m ib d, i = .wrPage m ib b d ∧ k = s.editTask) ∨ i = .reset := by
  cases h with
  | editsLivePage m ib n d | editsPage m ib n d =>
    rcases s.withPage_get_cases n k b d with h | ⟨rfl, hk⟩
    · exact .inl h
    · exact .inr (.inl ⟨m, ib, d, rfl, hk⟩)
  | resets => exact .inr (.inr rfl)
  | _ => left; simp

theorem Effect.route (h : Effect s i t) : t.route = s.route ∨ (∃ m ib d, i = .wrTaskSel m ib d) ∨
    (∃ m ib d, i = .wrMmuCtrl m ib d) ∨
    (∃ m ib n d, i = .wrPage m ib n d ∧ s.pgEn = true ∧ s.editTask = s.taskReq) ∨ i = .reset := by
  cases h with
  | selectsTask m ib d => exact .inr (.inl ⟨m, ib, d, rfl⟩)
  | setsMode m ib d => exact .inr (.inr (.inl ⟨m, ib, d, rfl⟩))
  | editsLivePage m ib n d hp he => exact .inr (.inr (.inr (.inl ⟨m, ib, n, d, rfl, hp, he⟩)))
  | resets => exact .inr (.inr (.inr (.inr rfl)))
  | _ => left; simp

/-! ### The interrupt state (R33 to R35) -/

/-- Two bytes agree on the bits past the last. -/
theorem getLsbD_eq_past {k : Nat} (hk : 8 ≤ k) (a b : Byte) : a.getLsbD k = b.getLsbD k :=
  (a.getLsbD_of_ge k hk).trans (b.getLsbD_of_ge k hk).symm

/-- A status read keeps every source that is not latched. -/
theorem srcAfterStatusRead_kept (latched src : Byte) (k : Nat) :
    (srcAfterStatusRead latched src).getLsbD k = src.getLsbD k ∨ latched.getLsbD k = true := by
  rcases Nat.lt_or_ge k 8 with hk | hk
  · rw [srcAfterStatusRead_getLsbD _ _ hk]
    cases latched.getLsbD k <;> simp
  · exact .inl (getLsbD_eq_past hk _ _)

/-- A write of INT_SWI keeps every source but 7. -/
theorem srcWithSwi_kept (src : Byte) (b : Bool) (k : Nat) : (srcWithSwi src b).getLsbD k = src.getLsbD k ∨ k = 7 := by
  rcases Nat.lt_trichotomy k 7 with hk | hk | hk
  · left; rw [srcWithSwi_getLsbD, if_pos hk]
  · exact .inr hk
  · exact .inl (getLsbD_eq_past hk _ _)

/-- A source update keeps every source past 6. -/
theorem srcAfterUpdate_kept (latched src mask val : Byte) (k : Nat) :
    (srcAfterUpdate latched src mask val).getLsbD k = src.getLsbD k ∨ k < 7 := by
  by_cases h7 : k < 7
  · exact .inr h7
  · left
    rcases Nat.lt_or_ge k 8 with hk | hk
    · rw [srcAfterUpdate_getLsbD _ _ _ _ hk, if_neg (fun h => h7 h.1)]
    · exact getLsbD_eq_past hk _ _

theorem Effect.src (h : Effect s i t) (k : Nat) : t.src.getLsbD k = s.src.getLsbD k ∨
    (∃ mask val, i = .srcUpdate mask val ∧ k < 7) ∨ (∃ m ib d, i = .wrIntSwi m ib d ∧ k = 7) ∨
    (∃ m ib, i = .rdIntStatus m ib ∧ s.cfg.latchedMask.getLsbD k = true) ∨ i = .reset := by
  cases h with
  | updatesSources mask val =>
    rw [State.recalc_src]
    exact (srcAfterUpdate_kept _ _ mask val k).imp_right fun hk => .inl ⟨mask, val, rfl, hk⟩
  | setsSwi m ib d =>
    rw [State.recalc_src]
    exact (srcWithSwi_kept _ _ k).imp_right fun hk => .inr (.inl ⟨m, ib, d, rfl, hk⟩)
  | clearsLatched m ib =>
    rw [State.recalc_src]
    exact (srcAfterStatusRead_kept _ _ k).imp_right fun hk => .inr (.inr (.inl ⟨m, ib, rfl, hk⟩))
  | resets => exact .inr (.inr (.inr (.inr rfl)))
  | _ => left; simp

theorem Effect.irqEn (h : Effect s i t) : t.irqEn = s.irqEn ∨ (∃ m ib d, i = .wrIrqEn m ib d) ∨ i = .reset := by
  cases h with
  | masksIrq m ib d => exact .inr (.inl ⟨m, ib, d, rfl⟩)
  | resets => exact .inr (.inr rfl)
  | _ => left; simp

theorem Effect.firqEn (h : Effect s i t) : t.firqEn = s.firqEn ∨ (∃ m ib d, i = .wrFirqEn m ib d) ∨ i = .reset := by
  cases h with
  | masksFirq m ib d => exact .inr (.inl ⟨m, ib, d, rfl⟩)
  | resets => exact .inr (.inr rfl)
  | _ => left; simp

/-- The lines move only where the recalculator runs (R206), and at RESET. -/
theorem Effect.lines (h : Effect s i t) : (t.irqLine = s.irqLine ∧ t.firqLine = s.firqLine) ∨
    (∃ m ib d, i = .wrIrqEn m ib d) ∨ (∃ m ib d, i = .wrFirqEn m ib d) ∨ (∃ m ib, i = .rdIntStatus m ib) ∨
    (∃ m ib d, i = .wrIntSwi m ib d) ∨ (∃ mask val, i = .srcUpdate mask val) ∨ i = .reset := by
  cases h with
  | masksIrq m ib d => exact .inr (.inl ⟨m, ib, d, rfl⟩)
  | masksFirq m ib d => exact .inr (.inr (.inl ⟨m, ib, d, rfl⟩))
  | clearsLatched m ib => exact .inr (.inr (.inr (.inl ⟨m, ib, rfl⟩)))
  | setsSwi m ib d => exact .inr (.inr (.inr (.inr (.inl ⟨m, ib, d, rfl⟩))))
  | updatesSources mask val => exact .inr (.inr (.inr (.inr (.inr (.inl ⟨mask, val, rfl⟩)))))
  | resets => exact .inr (.inr (.inr (.inr (.inr (.inr rfl)))))
  | _ => left; simp

/-! ### The HALT, NMI and yield state (R36 to R40) -/

theorem Effect.haltState (h : Effect s i t) :
    (t.haltDma = s.haltDma ∧ t.haltMain = s.haltMain ∧ t.nmiCtl = s.nmiCtl) ∨
      (∃ m ib d, i = .wrCpuCtrl m ib d) ∨ i = .reset := by
  cases h with
  | controlsCpus m ib d => exact .inr (.inl ⟨m, ib, d, rfl⟩)
  | resets => exact .inr (.inr rfl)
  | _ => left; simp

theorem Effect.nmiState (h : Effect s i t) : (t.nmiLast = s.nmiLast ∧ t.firstNmiArmed = s.firstNmiArmed) ∨
    (∃ m ib d, i = .wrCpuCtrl m ib d) ∨ (∃ v, i = .nmiIn v) ∨ i = .reset := by
  cases h with
  | controlsCpus m ib d => exact .inr (.inl ⟨m, ib, d, rfl⟩)
  | presentsNmi v => exact .inr (.inr (.inl ⟨v, rfl⟩))
  | resets => exact .inr (.inr (.inr rfl))
  | _ => left; simp

theorem Effect.yieldTo (h : Effect s i t) :
    t.yieldTo = s.yieldTo ∨ (∃ m ib d, i = .wrCpuCtrl m ib d) ∨ i = .reset := by
  cases h with
  | controlsCpus m ib d => exact .inr (.inl ⟨m, ib, d, rfl⟩)
  | resets => exact .inr (.inr rfl)
  | _ => left; simp

/-! ### RAM, ROM and the parameters (R23, R24) -/

/-- No operation writes the parameters. -/
theorem Effect.cfg (h : Effect s i t) : t.cfg = s.cfg := by
  cases h <;> simp

theorem Effect.ramByte (h : Effect s i t) (o : Nat) : t.ramByte o = s.ramByte o ∨
    ∃ m ib a d, i = .wrMem m ib a d ∧ (s.routeOf a).region = .ram ∧ (s.routeOf a).writable = true ∧
      (s.routeOf a).base = o := by
  cases h with
  | stores m ib a d hr hw =>
    rw [State.ramByte_withRamByte]
    split
    · rename_i ho; exact .inr ⟨m, ib, a, d, rfl, hr, hw, ho.symm⟩
    · exact .inl rfl
  | _ => left; simp [State.ramByte]

/-! ### The history (R45) -/

/-- The operations that write the history append to it. -/
theorem Effect.history (h : Effect s i t) : s.history <+: t.history := by
  cases h <;> simp [State.recalc_eq, State.recalcNmi_eq, State.setHalt_eq, State.resetBlock]

/-- Every transaction only appends to the history. -/
theorem exec_history (h : exec i s = .next t) : s.history <+: t.history := by
  rcases exec_effect h with rfl | ⟨y, he, -⟩
  · exact List.prefix_rfl
  · exact he.history

end Sys2Proof.Machine
end

section
/-! Canonical RAM lists are equal when they read equal (R23; log entry 9). -/

namespace Sys2Proof.Machine.Memory

variable {init : Image}

theorem wfFrom_cons {lo a : Nat} {v : Byte} {m : List Host.Cell} : wfFrom init lo ((a, v) :: m) = true ↔
    lo ≤ a ∧ v ≠ init.byte a ∧ wfFrom init (a + 1) m = true := by
  simp [wfFrom, and_assoc]

/-- An unlisted offset reads as the byte of the launch image. -/
theorem read_of_unlisted {m : List Host.Cell} {o : Nat} (h : ∀ c ∈ m, c.1 ≠ o) : read init m o = init.byte o := by
  induction m with
  | nil => rfl
  | cons c rest ih =>
    obtain ⟨hc, hr⟩ := List.forall_mem_cons.mp h
    rw [read, if_neg hc, ih hr]

/-- So does every offset below the listed ones. -/
theorem read_of_lt {m : List Host.Cell} {lo o : Nat} (hm : wfFrom init lo m = true) (ho : o < lo) :
    read init m o = init.byte o := by
  induction m generalizing lo with
  | nil => rfl
  | cons c rest ih =>
    obtain ⟨hlo, -, hr⟩ := wfFrom_cons.mp hm
    rw [read, if_neg (by omega), ih hr (by omega)]

/-- The first offset a canonical list holds reads different from the launch image. -/
theorem read_head_ne {m : List Host.Cell} {lo a : Nat} {v : Byte} (hm : wfFrom init lo ((a, v) :: m) = true) :
    read init ((a, v) :: m) a ≠ init.byte a := by
  obtain ⟨-, hv, -⟩ := wfFrom_cons.mp hm
  rwa [read, if_pos rfl]

/-- So a canonical list that reads the same does not start past it. -/
theorem le_head_of_read_eq {m m' : List Host.Cell} {lo a b : Nat} {v : Byte}
    (hm : wfFrom init lo ((a, v) :: m) = true) (hm' : wfFrom init b m' = true)
    (h : ∀ o, read init ((a, v) :: m) o = read init m' o) : b ≤ a := by
  by_contra hab
  exact read_head_ne hm ((h a).trans (read_of_lt hm' (Nat.lt_of_not_le hab)))

/-- The tail of a canonical list reads as the list, but for the head's own offset, which it does not list. -/
theorem read_tail {m : List Host.Cell} {a : Nat} {v : Byte} (hm : wfFrom init (a + 1) m = true) (o : Nat) :
    read init m o = if o = a then init.byte a else read init ((a, v) :: m) o := by
  split
  · rename_i ho; rw [ho, read_of_lt hm (Nat.lt_succ_self a)]
  · rename_i ho; rw [read, if_neg (Ne.symm ho)]

/-- Canonical lists that read the same at every offset are the same list. -/
theorem eq_of_read_eq {m m' : List Host.Cell} {lo lo' : Nat} (hm : wfFrom init lo m = true)
    (hm' : wfFrom init lo' m' = true) (h : ∀ o, read init m o = read init m' o) : m = m' := by
  induction m generalizing m' lo lo' with
  | nil =>
    cases m' with
    | nil => rfl
    | cons c' rest' => exact absurd (h c'.1).symm (read_head_ne hm')
  | cons c rest ih =>
    obtain ⟨a, v⟩ := c
    cases m' with
    | nil => exact absurd (h a) (read_head_ne hm)
    | cons c' rest' =>
      obtain ⟨b, w⟩ := c'
      obtain ⟨-, hv, hr⟩ := wfFrom_cons.mp hm
      obtain ⟨-, hw, hr'⟩ := wfFrom_cons.mp hm'
      have hba : b ≤ a := le_head_of_read_eq hm (wfFrom_cons.mpr ⟨le_rfl, hw, hr'⟩) h
      have hab : a ≤ b := le_head_of_read_eq hm' (wfFrom_cons.mpr ⟨le_rfl, hv, hr⟩) fun o => (h o).symm
      obtain rfl : a = b := le_antisymm hab hba
      have hvw : v = w := by simpa [read] using h a
      have hrest : rest = rest' := ih hr hr' fun o => by rw [read_tail (v := v) hr, read_tail (v := w) hr', h]
      rw [hvw, hrest]

end Sys2Proof.Machine.Memory
end

section
/-! The state of the block (10_state.md): which transactions write which state variable, and how RAM and the history are
held. Each frame is the effects' own (`Effect`), carried over admission by `exec_effect`. -/

namespace Sys2Proof.Machine

/-- Settles O38: each conjunct is the frame of its variable over the effects. -/
theorem translationStateWriters : Obligations.TranslationStateWriters := by
  unfold Obligations.TranslationStateWriters
  intro i s t h
  rcases exec_effect h with rfl | ⟨y, he, -⟩
  · exact ⟨.inl rfl, .inl rfl, .inl ⟨rfl, rfl⟩, fun _ _ => .inl rfl, .inl rfl⟩
  · exact ⟨he.taskReq, he.editTask, he.modeBits, he.pageTable, he.route⟩

/-- Settles O39, by the frames of the sources, bit by bit, of the masks and of the lines. -/
theorem interruptStateWriters : Obligations.InterruptStateWriters := by
  unfold Obligations.InterruptStateWriters
  intro i s t h
  rcases exec_effect h with rfl | ⟨y, he, -⟩
  · exact ⟨fun _ => .inl rfl, .inl rfl, .inl rfl, .inl ⟨rfl, rfl⟩⟩
  · exact ⟨he.src, he.irqEn, he.firqEn, he.lines⟩

/-- `yield_to` has two kinds of writer: admission, when the CPU waited for begins an instruction, and the effects. -/
theorem exec_yieldTo {i : Instr} {s t : State} (h : exec i s = .next t) : t.yieldTo = s.yieldTo ∨
    (∃ m, s.yieldTo = some m ∧ t.yieldTo = none ∧ i.presenter = some (m, true)) ∨
    (∃ m ib d, i = .wrCpuCtrl m ib d) ∨ i = .reset := by
  rcases exec_effect h with rfl | ⟨y, he, hy⟩
  · exact .inl rfl
  · rcases he.yieldTo with (ht : t.yieldTo = y) | hw
    · rcases hy with rfl | ⟨m, hs, rfl, hp⟩
      · exact .inl ht
      · exact .inr (.inl ⟨m, hs, ht, hp⟩)
    · exact .inr (.inr hw)

/-- Settles O40, by the frames of the HALT and the NMI state and the two kinds of writer of `yield_to`. -/
theorem haltAndNmiStateWriters : Obligations.HaltAndNmiStateWriters := by
  unfold Obligations.HaltAndNmiStateWriters
  intro i s t h
  have hyield := exec_yieldTo h
  rcases exec_effect h with rfl | ⟨y, he, -⟩
  · exact ⟨.inl ⟨rfl, rfl, rfl⟩, .inl ⟨rfl, rfl⟩, hyield⟩
  · exact ⟨he.haltState, he.nmiState, hyield⟩

/-- Settles O41: only the effect of a WR_MEM stores, at its route, and none writes the parameters, which hold the ROM. -/
theorem onlyWrMemStores : Obligations.OnlyWrMemStores := by
  unfold Obligations.OnlyWrMemStores
  intro i s t h
  rcases exec_effect h with rfl | ⟨y, he, -⟩
  · exact ⟨fun _ => .inl rfl, fun _ => rfl, rfl⟩
  · have hcfg : t.cfg = s.cfg := he.cfg
    exact ⟨he.ramByte, fun o => by rw [State.romByte, State.romByte, hcfg], hcfg⟩

/-- Past the end of the RAM array nothing is listed, so it reads as the launch image. -/
theorem State.Inv.ramByte_past {s : State} (h : s.Inv) {o : Nat} (ho : s.ramSize ≤ o) :
    s.ramByte o = s.cfg.ramInit.byte o :=
  Memory.read_of_unlisted fun c hc => by have := h.ramBounded c hc; omega

/-- Settles O42: the two lists read the same past the array as well as inside it, and a canonical list is determined by what
it reads. -/
theorem equalRamIsEqualData : Obligations.EqualRamIsEqualData := by
  unfold Obligations.EqualRamIsEqualData
  intro s t hs ht hcfg hread
  have hsize : t.ramSize = s.ramSize := by rw [State.ramSize, State.ramSize, hcfg]
  have hall : ∀ o, t.ramByte o = s.ramByte o := fun o => by
    rcases Nat.lt_or_ge o s.ramSize with ho | ho
    · exact hread o ho
    · rw [hs.ramByte_past ho, ht.ramByte_past (hsize ▸ ho), hcfg]
  have htwf : Memory.wf s.cfg.ramInit t.ram = true := hcfg ▸ ht.ramWf
  exact Memory.eq_of_read_eq htwf hs.ramWf fun o =>
    calc Memory.read s.cfg.ramInit t.ram o
      _ = t.ramByte o := by rw [State.ramByte, hcfg]
      _ = s.ramByte o := hall o

/-- Settles O43: extending a given history is kept by every transaction, so by every step. -/
theorem historyOnlyGrows : Obligations.HistoryOnlyGrows := by
  unfold Obligations.HistoryOnlyGrows
  intro s t h
  have hgrows : s.history <+: t.history :=
    step_keeps (P := fun u => s.history <+: u.history) (fun _ _ hu => hu)
      (fun _ _ _ hu hx => hu.trans (exec_history hx)) List.prefix_rfl h
  obtain ⟨es, hes⟩ := hgrows
  exact ⟨es, hes.symm⟩

end Sys2Proof.Machine
end

section
/-! The invariant of the block under every step (R62, R64, R207, R209, R210, R212). Each field of `State.Inv` has its own
lemma over the effects of the transactions; admission and the taking of a word are added at the end. -/

namespace Sys2Proof.Machine

variable {i : Instr} {s t : State}

/-! ### The routing table (R62) -/

/-- A route to RAM is none of the I/O window, so on a coherent table its offset is inside RAM (R64). -/
theorem State.routeOf_ram_lt (hc : s.cfg.BlocksWf) (h : s.Coherent) {a : Addr} (hr : (s.routeOf a).region = .ram) :
    (s.routeOf a).base < s.ramSize := by
  cases ha : inIoWindow s.cfg a with
  | true => simp [State.routeOf, ha, ioEntry] at hr
  | false =>
    rcases State.routeOf_bounds hc h ha with ⟨-, -, hlt⟩ | ⟨hrom, -, -⟩
    · exact hlt
    · rw [hrom] at hr; cases hr

/-- A page-register write changes no resolution of the live task, but that of its own entry where the edited row is live. -/
theorem State.withPage_resolve_live {n b : Nib} (d : Byte)
    (hb : b ≠ n ∨ ¬ (s.pgEn = true ∧ s.editTask = s.taskReq)) :
    (s.withPage n d).resolve (s.withPage n d).live b = s.resolve s.live b := by
  have hentry : s.pgEn = true → ((s.withPage n d).pt.get s.taskReq).get b = (s.pt.get s.taskReq).get b := by
    intro hp
    rcases s.withPage_get_cases n s.taskReq b d with h | ⟨hbn, ht⟩
    · exact h
    · rcases hb with hb | hb
      · exact absurd hbn hb
      · exact absurd ⟨hp, ht.symm⟩ hb
  have hpt : (s.withPage n d).ptAt (s.withPage n d).live b = s.ptAt s.live b :=
    State.ptAt_live_congr (s := s) (t := s.withPage n d) rfl rfl rfl hentry
  rw [State.resolve, hpt]
  rfl

/-- A page-register write to a row that is not live needs no sync. -/
theorem State.Coherent.withPage (h : s.Coherent) (n : Nib) (d : Byte)
    (hl : ¬ (s.pgEn = true ∧ s.editTask = s.taskReq)) : (s.withPage n d).Coherent := fun b => by
  rw [State.withPage_resolve_live d (.inr hl)]
  exact h b

/-- One to the live row needs the sync of its own block alone. -/
theorem State.Coherent.withPage_sync (h : s.Coherent) (n : Nib) (d : Byte) :
    ((s.withPage n d).sync n n).Coherent := fun b => by
  have hsync : ((s.withPage n d).sync n n).resolve ((s.withPage n d).sync n n).live b =
      (s.withPage n d).resolve (s.withPage n d).live b := State.resolve_live_congr rfl rfl rfl rfl rfl b
  rw [hsync, State.sync_get]
  split
  · rfl
  · rename_i hr
    have hbn : b ≠ n := fun e => hr ⟨e ▸ BitVec.le_refl _, e ▸ BitVec.le_refl _⟩
    rw [State.withPage_resolve_live d (.inl hbn)]
    exact h b

/-- RESET ends in a full sync. -/
theorem State.resetBlock_coherent : s.resetBlock.Coherent :=
  State.sync_coherent.congr rfl rfl rfl rfl rfl rfl

/-- Every transaction's rule keeps the routing table coherent: those that write what `resolve` reads sync the entries that
can change. -/
theorem State.Coherent.body (h : s.Coherent) (hb : body i s = .next t) : t.Coherent := by
  cases effect_of_body hb with
  | selectsTask | setsMode => exact State.sync_coherent
  | resets => exact State.resetBlock_coherent
  | editsLivePage m ib n d => exact h.withPage_sync n d
  | editsPage m ib n d =>
    by_cases hl : s.pgEn = true ∧ s.editTask = s.taskReq
    · have hsync : (s.withPage n d).sync n n = s.withPage n d := by simpa [Machine.body, hl] using hb
      exact hsync ▸ h.withPage_sync n d
    · exact h.withPage n d hl
  | _ => exact h.congr (by simp) (by simp) (by simp) (by simp) (by simp) (by simp)

/-- Every transaction keeps the routing table coherent. -/
theorem State.Coherent.exec (h : s.Coherent) (hx : exec i s = .next t) : t.Coherent := by
  rcases exec_cases hx with rfl | ⟨y, hb, -⟩
  · exact h
  · exact State.Coherent.body (s := { s with yieldTo := y, outcome := .done }) h hb

/-! ### RAM (R23, R64) -/

/-- RAM is in canonical form and inside its array. -/
def State.RamCanonical (s : State) : Prop := Memory.wf s.cfg.ramInit s.ram = true ∧ ∀ c ∈ s.ram, c.1 < s.ramSize

theorem State.RamCanonical.congr (h : s.RamCanonical) (hc : t.cfg = s.cfg) (hr : t.ram = s.ram) : t.RamCanonical := by
  rw [State.RamCanonical, State.ramSize, hc, hr]
  exact h

/-- A write through a route of a coherent table stays in the array. -/
theorem Effect.ramCanonical (he : Effect s i t) (hc : s.cfg.BlocksWf) (hco : s.Coherent) (h : s.RamCanonical) :
    t.RamCanonical := by
  cases he with
  | stores m ib a d hr hw =>
    have hlt : (s.routeOf a).base < s.ramSize := State.routeOf_ram_lt hc hco hr
    exact ⟨Memory.wf_write _ d h.1, Memory.bounded_write d hlt h.2⟩
  | _ => exact h.congr (by simp) (by simp)

/-! ### The interrupt lines and the first-NMI guard (R207, R209) -/

/-- After `recalc()` the lines are at their levels, whatever they were before. -/
theorem State.recalc_lineLaw : s.recalc.LineLaw := by simp [State.LineLaw]

/-- Every effect leaves the lines at their levels: what writes an input of a level recalculates, and RESET clears all. -/
theorem Effect.lineLaw (he : Effect s i t) (h : s.LineLaw) : t.LineLaw := by
  cases he with
  | masksIrq | masksFirq | clearsLatched | setsSwi | updatesSources => exact State.recalc_lineLaw
  | resets => simp [State.LineLaw, State.resetBlock, lineLevel]
  | _ => simpa [State.LineLaw] using h

/-- Only RESET arms the first-NMI guard, and only where `IGNORE_FIRST_NMI` says so. -/
theorem Effect.firstNmiArmed (he : Effect s i t) (h : t.firstNmiArmed = true) :
    s.firstNmiArmed = true ∨ s.cfg.ignoreFirstNmi = true := by
  cases he with
  | controlsCpus | presentsNmi =>
    simp only [State.recalcNmi_eq, State.setHalt_firstNmiArmed, Bool.and_eq_true] at h
    exact .inl h.1
  | resets => exact .inr h
  | _ => left; simpa using h

/-! ### The CPU waited for (R210, R212) -/

/-- A CPU waited for is not halted. -/
def State.YieldReleased (s : State) : Prop := ∀ c, s.yieldTo = some c → s.halt c = false

theorem State.YieldReleased.congr (h : s.YieldReleased) (hy : t.yieldTo = s.yieldTo) (hd : t.haltDma = s.haltDma)
    (hm : t.haltMain = s.haltMain) : t.YieldReleased := by
  intro c hc
  have hh : t.halt c = s.halt c := by cases c <;> assumption
  rw [hh]
  exact h c (hy ▸ hc)

theorem State.setHalt_yieldTo (c : Master) (v : Bool) (w : Master) : (s.setHalt c v w).yieldTo = s.yieldAfter c v w := by
  rw [State.setHalt_eq]

theorem State.setHalt_halt (c : Master) (v : Bool) (w x : Master) :
    (s.setHalt c v w).halt x = if x = c then v else s.halt x := by
  rw [State.setHalt_eq]
  cases c <;> cases x <;> rfl

/-- The CPU waited for after `set_halt` is the one it releases, or was waited for before and has not been halted. -/
theorem State.yieldAfter_cases {c w x : Master} {v : Bool} (h : s.yieldAfter c v w = some x) :
    (x = c ∧ v = false) ∨ (s.yieldTo = some x ∧ (x = c → v = s.halt c)) := by
  unfold State.yieldAfter at h
  split at h
  · rename_i hv; exact .inr ⟨h, fun _ => hv⟩
  · cases v with
    | true =>
      rw [if_pos rfl] at h
      split at h
      · cases h
      · rename_i hne; exact .inr ⟨h, fun hxc => absurd (hxc ▸ h) hne⟩
    | false =>
      rw [if_neg Bool.false_ne_true] at h
      by_cases hxc : x = c
      · exact .inl ⟨hxc, rfl⟩
      · split at h
        · cases h; exact absurd rfl hxc
        · exact .inr ⟨h, fun e => absurd e hxc⟩

/-- `set_halt` leaves no halted CPU waited for. -/
theorem State.YieldReleased.setHalt (h : s.YieldReleased) (c : Master) (v : Bool) (w : Master) :
    (s.setHalt c v w).YieldReleased := by
  intro x hx
  rw [State.setHalt_yieldTo] at hx
  rw [State.setHalt_halt]
  rcases State.yieldAfter_cases hx with ⟨hxc, hv⟩ | ⟨hy, hv⟩
  · rw [if_pos hxc, hv]
  · split
    · rename_i hxc; rw [hv hxc, ← hxc, h x hy]
    · exact h x hy

/-- `set_halt` keeps the CPU waited for released, RESET waits for none, and no other effect writes either. -/
theorem Effect.yieldReleased (he : Effect s i t) (h : s.YieldReleased) : t.YieldReleased := by
  cases he with
  | controlsCpus m ib d =>
    have hset := (h.setHalt .dma (dmaHaltField d) m).setHalt .main (mainHaltField d) m
    exact hset.congr (by simp) (by simp) (by simp)
  | resets => intro c hc; cases hc
  | _ => exact h.congr (by simp) (by simp) (by simp)

/-! ### The whole invariant -/

/-- A transaction begins in a state of the invariant: admission ends a wait or leaves it. -/
theorem State.Inv.begin (h : s.Inv) {y : Option Master} (hy : y = s.yieldTo ∨ y = none) (o : TxOutcome) :
    ({ s with yieldTo := y, outcome := o } : State).Inv where
  cfgWf := h.cfgWf
  ramWf := h.ramWf
  ramBounded := h.ramBounded
  coherent := h.coherent
  lines := h.lines
  yieldReleased := by
    rcases hy with rfl | rfl
    · exact h.yieldReleased
    · intro c hc; cases hc
  armedOnlyIfIgnoring := h.armedOnlyIfIgnoring

/-- Every transaction's rule keeps the invariant. -/
theorem State.Inv.body (h : s.Inv) (hb : body i s = .next t) : t.Inv := by
  have he : Effect s i t := effect_of_body hb
  obtain ⟨hwf, hbounded⟩ := he.ramCanonical h.cfgWf.2.2 h.coherent ⟨h.ramWf, h.ramBounded⟩
  exact {
    cfgWf := he.cfg ▸ h.cfgWf
    ramWf := hwf
    ramBounded := hbounded
    coherent := h.coherent.body hb
    lines := he.lineLaw h.lines
    yieldReleased := he.yieldReleased h.yieldReleased
    armedOnlyIfIgnoring := fun ha => he.cfg ▸ (he.firstNmiArmed ha).elim h.armedOnlyIfIgnoring id }

/-- Every transaction keeps the invariant, stuck or done. -/
theorem State.Inv.exec (h : s.Inv) (hx : exec i s = .next t) : t.Inv := by
  rcases exec_cases hx with rfl | ⟨y, hb, hy⟩
  · exact h.begin (.inl rfl) .stuck
  · have hy' : y = s.yieldTo ∨ y = none := hy.imp_right fun ⟨_, _, hn, _⟩ => hn
    exact (h.begin hy' .done).body hb

/-- Settles O46: the invariant does not look at the words waiting, and every transaction keeps it. -/
theorem stepKeepsInvariant : Obligations.StepKeepsInvariant := by
  unfold Obligations.StepKeepsInvariant
  intro s t
  exact step_keeps (P := State.Inv) (fun _ _ h => { h with }) (fun _ _ _ h => h.exec)

end Sys2Proof.Machine
end

section
/-! Translation (20_memory.md R54 to R64): the live task, `resolve`, `sync`, and the routes of addresses. -/

namespace Sys2Proof.Machine

variable {s : State}

/-! ### `LIVE` and `resolve` (R54, R56, R57) -/

/-- Settles O9: `State.live_val` at each of the two states, the second of which keeps the task the first was given. -/
theorem liveTaskFollowsPaging : Obligations.LiveTaskFollowsPaging := by
  unfold Obligations.LiveTaskFollowsPaging
  refine ⟨fun s hc => State.live_val hc.1, fun s m d e hc hp he => ?_⟩
  refine ⟨_, _, exec_of_admits rfl (State.admits_of_not_boundary m), rfl, ?_,
    exec_of_admits rfl (State.admits_of_not_boundary m), ?_⟩
  · refine (State.live_val (by exact hc.1)).trans ?_
    simp [hp]
  · refine (State.live_val (by exact hc.1)).trans ?_
    simp [pgEnField, he, taskField]

/-- `resolve` with the block size a number: the overlay over the entry's decode. -/
theorem State.resolve_eq (hc : s.cfg.SizesWf) (t : Fin 17) (b : Nib) : s.resolve t b =
    if s.romOvl = true ∧ s.cfg.ovlFirst ≤ b.toNat
    then ⟨.rom, (b.toNat - s.cfg.ovlFirst) % s.cfg.romBlocks * 4096, false⟩ else decodePte s.cfg (s.ptAt t b) := by
  simp [State.resolve, resolvePte, overlaid, overlayRoute, blockSize_eq hc]

/-- Settles O10: row 16 is the row of `DEFAULT_TASK`, every other row is stored. -/
theorem resolvePriority : Obligations.ResolvePriority := by
  unfold Obligations.ResolvePriority
  intro s t b hc
  have hdefault : s.cfg.defaultTask = 16 := by
    obtain ⟨-, -, -, -, -, hval, -⟩ := hc.1
    exact Fin.ext hval
  have hrow : s.ptAt 16 b = defaultRow s.cfg b := hdefault ▸ State.ptAt_defaultTask b
  exact ⟨State.resolve_eq hc.1 t b, hrow.trans (defaultRow_eq s.cfg b), fun k hk => State.ptAt_of_toNat hc.1 hk b⟩

/-- The explicit ROM range lies past the installed RAM (R8). -/
theorem ramBlocks_le_romFirst {c : Config} (h : c.BlocksWf) : c.ramBlocks ≤ c.romFirst := h.2.2

/-- An entry that does not name installed RAM decodes to ROM. -/
theorem decodePte_rom {c : Config} {v : Byte} (h : c.ramBlocks ≤ v.toNat) :
    decodePte c v = ⟨.rom, v.toNat % c.romBlocks * c.blockSize, false⟩ := by
  rw [decodePte, if_neg (Nat.not_lt.mpr h)]

/-- Settles O11: the explicit ROM range decodes as what is not installed, and there `v mod ROM_BLOCKS` is `v − ROM_FIRST`. -/
theorem pteDecode : Obligations.PteDecode := by
  unfold Obligations.PteDecode
  intro c v hc
  have hsize : c.blockSize = 4096 := blockSize_eq hc.1
  refine ⟨fun hram => ?_, fun hrom => ?_, fun hrom => ?_⟩
  · rw [decodePte, if_pos hram, hsize]
  · rw [decodePte_rom hrom, hsize]
  · have hpast : c.ramBlocks ≤ v.toNat := (ramBlocks_le_romFirst hc.2.2).trans hrom
    rw [decodePte_rom hpast, hsize, mod_romBlocks_of_romFirst_le hc v.isLt hrom]

/-! ### Routes (R63, R64) -/

theorem State.routeOf_io {a : Addr} (ha : inIoWindow s.cfg a = true) : s.routeOf a = { ioEntry with base := a.toNat } := by
  simp [State.routeOf, ha]

theorem State.routeOf_block (hc : s.cfg.SizesWf) {a : Addr} (ha : inIoWindow s.cfg a = false) :
    s.routeOf a = { s.route.get (a.extractLsb' 12 4) with
      base := (s.route.get (a.extractLsb' 12 4)).base + a.toNat % 4096 } := by
  simp [State.routeOf, ha, blockOf_eq hc, offsetOf_eq hc]

/-- Settles O12: the I/O window first, then the entry of the block. -/
theorem routeOfAddress : Obligations.RouteOfAddress := by
  unfold Obligations.RouteOfAddress
  intro s a hc
  refine ⟨fun ha => ?_, fun ha => ?_⟩
  · rw [State.routeOf_io ((inIoWindow_iff s.cfg a).mpr ha)]
    exact ⟨rfl, rfl⟩
  · exact State.routeOf_block hc.1 ((inIoWindow_eq_false_iff s.cfg a).mpr ha)

/-- An entry that does not name installed RAM resolves to ROM, under the overlay or not. -/
theorem State.resolve_rom {t : Fin 17} {b : Nib} (h : s.cfg.ramBlocks ≤ (s.ptAt t b).toNat) :
    (s.resolve t b).region = .rom := by
  rw [State.resolve, resolvePte]
  split
  · rfl
  · rw [decodePte_rom h]

/-- Settles O13: in the I/O window a route names neither array, elsewhere `State.routeOf_bounds` says which and how far. -/
theorem routeStaysInBounds : Obligations.RouteStaysInBounds := by
  unfold Obligations.RouteStaysInBounds
  refine ⟨fun s t b => State.resolve_rom, fun s a hc hco => ?_⟩
  have hsize : s.cfg.blockSize = 4096 := blockSize_eq hc.1
  cases ha : inIoWindow s.cfg a with
  | true =>
    rw [State.routeOf_io ha]
    exact ⟨fun h => (by cases h), fun h => (by cases h)⟩
  | false =>
    have hb := State.routeOf_bounds hc.2.2 hco ha
    rw [State.ramSize, State.romSize, hsize] at hb
    rcases hb with ⟨hr, hw, hlt⟩ | ⟨hr, hw, hlt⟩
    · exact ⟨fun _ => ⟨hlt, hw⟩, fun h => by rw [hr] at h; cases h⟩
    · exact ⟨fun h => (by rw [hr] at h; cases h), fun _ => ⟨hlt, hw⟩⟩

/-! ### `sync` and coherence (R60, R62) -/

/-- The second sync resolves what the first resolved: `sync` writes nothing that `resolve` reads. -/
theorem State.sync_sync (lo hi : Nib) : (s.sync lo hi).sync lo hi = s.sync lo hi := by
  have hroute : ((s.sync lo hi).sync lo hi).route = (s.sync lo hi).route := by
    apply Vec16.ext
    intro b
    rw [State.sync_get, State.resolve_live_congr (s := s) (t := s.sync lo hi) rfl rfl rfl rfl rfl, State.sync_get]
    split <;> rfl
  calc (s.sync lo hi).sync lo hi
    _ = { s.sync lo hi with route := ((s.sync lo hi).sync lo hi).route } := rfl
    _ = s.sync lo hi := by rw [hroute]

/-- Settles O14, by what `sync` writes, its frame, and `State.sync_sync`. -/
theorem syncRecomputesItsRange : Obligations.SyncRecomputesItsRange := by
  unfold Obligations.SyncRecomputesItsRange
  exact fun s lo hi => ⟨s.sync_get lo hi, rfl, State.sync_sync lo hi⟩

/-- Settles O15: the transactions that write what `resolve` reads sync what can change. -/
theorem coherenceKept : Obligations.CoherenceKept := by
  unfold Obligations.CoherenceKept
  exact fun _ _ _ h => h.exec

end Sys2Proof.Machine
end

section
/-! The two masters share one translation and one set of registers (R71, R220, R221): inside an instruction a transaction is
its rule, and the rule of a READ of memory names the master only in its reply, that of a WRITE not at all. -/

namespace Sys2Proof.Machine

variable {s : State}

/-- Inside an instruction two masters' transactions with one rule do the same. -/
theorem exec_eq_of_body_eq {i j : Instr} {m m' : Master} (hi : i.presenter = some (m, false))
    (hj : j.presenter = some (m', false)) (hb : body i = body j) : exec i s = exec j s := by
  rw [exec_of_admits hi (State.admits_of_not_boundary m), exec_of_admits hj (State.admits_of_not_boundary m'), hb,
    State.begun_false, State.begun_false]

/-- A READ of memory replies the byte its route names, and only that byte. -/
theorem exec_rdMem_replies_iff (m : Master) (a : Addr) (v : Byte) :
    exec (.rdMem m false a) s = .next { s.begun m false with history := s.history ++ [.reply m v] } ↔
      s.readRoute (s.routeOf a) = .ok v := by
  rw [exec_of_admits rfl (State.admits_of_not_boundary m)]
  have hread : (s.begun m false).readRoute ((s.begun m false).routeOf a) = s.readRoute (s.routeOf a) := rfl
  simp only [body, hread]
  cases s.readRoute (s.routeOf a) with
  | error f => simp
  | ok w => simp [State.reply, State.emit]

/-- Settles O55: the byte a READ replies is that of its route, which names no master, and neither do the WRITEs' rules. -/
theorem mastersShareTheBlock : Obligations.MastersShareTheBlock := by
  unfold Obligations.MastersShareTheBlock
  refine ⟨fun s a v => ?_, fun s a n d f hf => ?_⟩
  · rw [exec_rdMem_replies_iff, exec_rdMem_replies_iff]
  · simp only [List.mem_cons, List.not_mem_nil, or_false] at hf
    rcases hf with rfl | rfl | rfl | rfl | rfl | rfl | rfl | rfl <;> exact exec_eq_of_body_eq rfl rfl rfl

end Sys2Proof.Machine
end

section
/-! The encoder's words decode to the transactions they were made from (R80 to R84, R97). -/

namespace Sys2Proof

variable {c : Config} {m : Master} {ib : Bool} {d : Byte}

/-- The word of a READ of the register at offset `o` decodes by that offset. -/
theorem decode_encodeRead_regAddr (h : c.WindowsWf) {o : BitVec 5} {i : Instr}
    (hi : ∀ a, regOffset a = o → decodeRegRead m ib a = i) : decode c (encodeRead m ib (regAddr c o)) = .ok i := by
  rw [decode_encodeRead, decodeRead_regAddr m ib h hi]

/-- The word of a WRITE of the register at offset `o` decodes by that offset. -/
theorem decode_encodeWrite_regAddr (h : c.WindowsWf) {o : BitVec 5} {i : Instr}
    (hi : ∀ a, regOffset a = o → decodeRegWrite m ib a d = i) :
    decode c (encodeWrite m ib (regAddr c o) d) = .ok i := by
  rw [decode_encodeWrite, decodeWrite_regAddr m ib d h hi]

theorem decode_encodeIack : decode c (encodeRW 0b010#3 m ib 0#16 0#8) = .ok (.iack m ib) := by simp [decode]

theorem decode_encodeS {mask val : Byte} (h : mask.getLsbD 7 = false) :
    decode c (encodeS mask val) = .ok (.srcUpdate mask val) := by simpa [decode] using h

theorem decode_encodeN (v : Bool) : decode c (encodeN v) = .ok (.nmiIn v) := by cases v <;> rfl

theorem decode_encodeReset : decode c (fieldAt 0b101#3 29) = .ok .reset := rfl

/-- Every well-formed transaction is what its word decodes to. -/
theorem decode_encode (h : c.WindowsWf) {i : Instr} (hi : i.wellFormed c = true) : decode c (encode c i) = .ok i := by
  cases i with
  | rdMem m ib a =>
    have ha : inIoWindow c a = false := by simpa [Instr.wellFormed] using hi
    rw [encode, decode_encodeRead, decodeRead_memory m ib h ha]
  | wrMem m ib a d =>
    have ha : inIoWindow c a = false := by simpa [Instr.wellFormed] using hi
    rw [encode, decode_encodeWrite, decodeWrite_memory m ib d h ha]
  | rdExtio m ib a => rw [encode, decode_encodeRead, decodeRead_external m ib hi]
  | wrExtio m ib a d => rw [encode, decode_encodeWrite, decodeWrite_external m ib d hi]
  | rdUnimpl m ib a => rw [encode, decode_encodeRead, decodeRead_unimplemented m ib hi]
  | wrUnimpl m ib a d => rw [encode, decode_encodeWrite, decodeWrite_unimplemented m ib d hi]
  | rdPage m ib n => rw [encode, decode_encodeRead, decodeRead_pageAddr m ib h]
  | wrPage m ib n d => rw [encode, decode_encodeWrite, decodeWrite_pageAddr m ib d h]
  | iack => exact decode_encodeIack
  | srcUpdate mask val => exact decode_encodeS (by simpa [Instr.wellFormed] using hi)
  | nmiIn v => exact decode_encodeN v
  | reset => exact decode_encodeReset
  | rdTaskSel | rdEditTask | rdMmuCtrl | rdCpuCtrl | rdIrqEn | rdFirqEn | rdIntStatus | rdIntSwi | rdIntLines =>
    exact decode_encodeRead_regAddr h fun a ha => by rw [decodeRegRead, ha]; rfl
  | wrTaskSel | wrEditTask | wrMmuCtrl | wrCpuCtrl | wrIrqEn | wrFirqEn | wrIntStatus | wrIntSwi | wrIntLines =>
    exact decode_encodeWrite_regAddr h fun a ha => by rw [decodeRegWrite, ha]; rfl

end Sys2Proof
end

section
/-! What a step performs (R70, R97). -/

namespace Sys2Proof.Machine

variable {s : State}

/-- A step performs the transaction the next word decodes to, from the state with that word taken. -/
theorem step_of_decode {w : Word} {rest : List Word} {i : Instr} (hp : s.pending = w :: rest)
    (hd : decode s.cfg w = .ok i) : step s = exec i { s with pending := rest } := by
  simp only [step, State.takeWord, hp, hd]

/-- Settles O5: `step_of_decode`, and with nothing presented no word is taken. -/
theorem stepRunsPresentedTransaction : Obligations.StepRunsPresentedTransaction := by
  unfold Obligations.StepRunsPresentedTransaction
  exact ⟨fun s w rest i => step_of_decode, fun s hp => by simp only [step, State.takeWord, hp]⟩

/-- A word has 32 bits, so presenting its 32 bits presents the word. -/
theorem State.withFetchWord_toNat (w : Word) : s.withFetchWord 32 w.toNat = s.present w := by
  rw [State.withFetchWord, Nat.mod_eq_of_lt w.isLt, BitVec.ofNat_toNat, BitVec.setWidth_eq]

/-- Settles O6: the encoding presented is taken first and decodes to the transaction. -/
theorem presentedWordIsPerformed : Obligations.PresentedWordIsPerformed := by
  unfold Obligations.PresentedWordIsPerformed
  intro s i hc hi
  rw [State.withFetchWord_toNat]
  exact step_of_decode (s := s.present (encode s.cfg i)) rfl (decode_encode hc.2.1 hi)

end Sys2Proof.Machine
end

section
/-! What a word of each KIND decodes to (R97, R98). -/

namespace Sys2Proof

variable {c : Config} {w : Word}

theorem Word.kind_cases (w : Word) : w.kind = 0#3 ∨ w.kind = 1#3 ∨ w.kind = 2#3 ∨ w.kind = 3#3 ∨ w.kind = 4#3 ∨
    w.kind = 5#3 ∨ w.kind = 6#3 ∨ w.kind = 7#3 := by
  generalize w.kind = k
  revert k
  decide

theorem decode_kind_read (h : w.kind = 0#3) : decode c w =
    if w.gap = 0#3 ∧ w.data = 0#8 then .ok (decodeRead c w.master w.ib w.addr)
    else .error .nonZeroReservedField := by rw [decode, h]; rfl

theorem decode_kind_write (h : w.kind = 1#3) : decode c w =
    if w.gap = 0#3 then .ok (decodeWrite c w.master w.ib w.addr w.data)
    else .error .nonZeroReservedField := by rw [decode, h]; rfl

theorem decode_kind_iack (h : w.kind = 2#3) : decode c w =
    if w.gap = 0#3 ∧ w.addr = 0#16 ∧ w.data = 0#8 then .ok (.iack w.master w.ib)
    else .error .nonZeroReservedField := by rw [decode, h]; rfl

theorem decode_kind_srcUpdate (h : w.kind = 3#3) : decode c w =
    if w.extractLsb' 16 13 = 0#13 ∧ w.mask.getLsbD 7 = false then .ok (.srcUpdate w.mask w.data)
    else .error .nonZeroReservedField := by rw [decode, h]; rfl

theorem decode_kind_nmiIn (h : w.kind = 4#3) : decode c w =
    if w.extractLsb' 1 28 = 0#28 then .ok (.nmiIn (w.getLsbD 0)) else .error .nonZeroReservedField := by
  rw [decode, h]; rfl

theorem decode_kind_reset (h : w.kind = 5#3) : decode c w =
    if w.extractLsb' 0 29 = 0#29 then .ok .reset else .error .nonZeroReservedField := by rw [decode, h]; rfl

theorem decode_kind_reserved (h : w.kind = 6#3 ∨ w.kind = 7#3) : decode c w = .error .reservedKind := by
  rcases h with h | h <;> rw [decode, h] <;> rfl

section
variable {p : Prop} [Decidable p] {i j : Instr} {e e' : DecodeError}

/-- What a word of a format means when it means anything. -/
theorem ite_eq_ok_iff : (if p then Except.ok i else .error e) = .ok j ↔ p ∧ i = j := by
  split <;> simp [*]

/-- When a word of a format is refused. -/
theorem ite_eq_error_iff : (if p then Except.ok i else .error e) = .error e' ↔ ¬ p ∧ e = e' := by
  split <;> simp [*]

end

end Sys2Proof
end

section
/-! A word that decodes is the encoding of what it decodes to, which is well formed (R80 to R85, R97, R98). -/

namespace Sys2Proof

variable {c : Config} {w : Word} {m : Master} {ib : Bool} {a : Addr} {d : Byte}

/-- Settles O2: `decode_encode`, constructor by constructor, needs only where the windows lie. -/
theorem decodeInvertsEncode : Obligations.DecodeInvertsEncode := by
  unfold Obligations.DecodeInvertsEncode
  exact fun c i hc hi => decode_encode hc.2.1 hi

/-- In the register window, an address is that of the register its offset names. -/
theorem regAddr_of_offset (h : c.WindowsWf) (ha : inRegWindow c a = true) {o : BitVec 5}
    (ho : (regOffset a).toNat = o.toNat) : regAddr c o = a := by
  rw [← BitVec.eq_of_toNat_eq ho, regAddr_regOffset h ha]

/-- The row of a READ in the register window spells that READ. -/
theorem decodeRegRead_spells (h : c.WindowsWf) (ha : inRegWindow c a = true) :
    (decodeRegRead m ib a).wellFormed c = true ∧ encode c (decodeRegRead m ib a) = encodeRead m ib a := by
  unfold decodeRegRead
  split
  case h_10 =>
    have h9 : 9 ≤ (regOffset a).toNat := by grind
    split
    · exact ⟨(isUnimplemented_iff c a).mpr ⟨ha, h9, by omega⟩, rfl⟩
    · exact ⟨rfl, by rw [encode, pageAddr_pageIndex h ha (by omega)]⟩
  all_goals
    rename_i ho
    exact ⟨rfl, by rw [encode, regAddr_of_offset h ha]; exact ho⟩

/-- The row of a WRITE in the register window spells that WRITE. -/
theorem decodeRegWrite_spells (h : c.WindowsWf) (ha : inRegWindow c a = true) :
    (decodeRegWrite m ib a d).wellFormed c = true ∧ encode c (decodeRegWrite m ib a d) = encodeWrite m ib a d := by
  unfold decodeRegWrite
  split
  case h_10 =>
    have h9 : 9 ≤ (regOffset a).toNat := by grind
    split
    · exact ⟨(isUnimplemented_iff c a).mpr ⟨ha, h9, by omega⟩, rfl⟩
    · exact ⟨rfl, by rw [encode, pageAddr_pageIndex h ha (by omega)]⟩
  all_goals
    rename_i ho
    exact ⟨rfl, by rw [encode, regAddr_of_offset h ha]; exact ho⟩

/-- The row of a READ, by its address, spells that READ. -/
theorem decodeRead_spells (h : c.WindowsWf) :
    (decodeRead c m ib a).wellFormed c = true ∧ encode c (decodeRead c m ib a) = encodeRead m ib a := by
  unfold decodeRead
  split
  next hr => exact decodeRegRead_spells h hr
  next hr =>
    split
    next hio => exact ⟨(isExternal_iff c a).mpr ⟨hio, by simpa using hr⟩, rfl⟩
    next hio => exact ⟨by simpa [Instr.wellFormed] using hio, rfl⟩

/-- The row of a WRITE, by its address, spells that WRITE. -/
theorem decodeWrite_spells (h : c.WindowsWf) :
    (decodeWrite c m ib a d).wellFormed c = true ∧ encode c (decodeWrite c m ib a d) = encodeWrite m ib a d := by
  unfold decodeWrite
  split
  next hr => exact decodeRegWrite_spells h hr
  next hr =>
    split
    next hio => exact ⟨(isExternal_iff c a).mpr ⟨hio, by simpa using hr⟩, rfl⟩
    next hio => exact ⟨by simpa [Instr.wellFormed] using hio, rfl⟩

theorem encodeRW_of_kind {k : BitVec 3} (hk : w.kind = k) (hg : w.gap = 0#3) :
    encodeRW k w.master w.ib w.addr w.data = w := by rw [← hk, encodeRW_fields w hg]

/-- What a word decodes to is well formed and spelt by that word alone. -/
theorem encode_of_decode (h : c.WindowsWf) {i : Instr} (hd : decode c w = .ok i) :
    i.wellFormed c = true ∧ encode c i = w := by
  rcases w.kind_cases with hk | hk | hk | hk | hk | hk | hk
  · rw [decode_kind_read hk, ite_eq_ok_iff] at hd
    obtain ⟨⟨hg, hz⟩, rfl⟩ := hd
    obtain ⟨hw, he⟩ := decodeRead_spells (m := w.master) (ib := w.ib) (a := w.addr) h
    exact ⟨hw, by rw [he, encodeRead, ← hz, encodeRW_of_kind hk hg]⟩
  · rw [decode_kind_write hk, ite_eq_ok_iff] at hd
    obtain ⟨hg, rfl⟩ := hd
    obtain ⟨hw, he⟩ := decodeWrite_spells (m := w.master) (ib := w.ib) (a := w.addr) (d := w.data) h
    exact ⟨hw, by rw [he, encodeWrite, encodeRW_of_kind hk hg]⟩
  · rw [decode_kind_iack hk, ite_eq_ok_iff] at hd
    obtain ⟨⟨hg, ha, hz⟩, rfl⟩ := hd
    exact ⟨rfl, by rw [encode, ← ha, ← hz, encodeRW_of_kind hk hg]⟩
  · rw [decode_kind_srcUpdate hk, ite_eq_ok_iff] at hd
    obtain ⟨⟨hz, h7⟩, rfl⟩ := hd
    exact ⟨by rw [Instr.wellFormed, h7]; rfl, encodeS_fields w hk hz⟩
  · rw [decode_kind_nmiIn hk, ite_eq_ok_iff] at hd
    obtain ⟨hz, rfl⟩ := hd
    exact ⟨rfl, encodeN_fields w hk hz⟩
  · rw [decode_kind_reset hk, ite_eq_ok_iff] at hd
    obtain ⟨hz, rfl⟩ := hd
    exact ⟨rfl, reset_fields w hk hz⟩
  · rw [decode_kind_reserved hk] at hd
    cases hd

/-- Settles O3: the fields of the word's format rebuild it, and its row is chosen by the address that is encoded. -/
theorem encodeInvertsDecode : Obligations.EncodeInvertsDecode := by
  unfold Obligations.EncodeInvertsDecode
  exact fun c w i hc hd => encode_of_decode hc.2.1 hd

/-- Settles O1: each word is the encoding of its transaction, which is well formed under the parameters of R7. -/
theorem workedWordsDecode : Obligations.WorkedWordsDecode := by
  unfold Obligations.WorkedWordsDecode
  have worked : ∀ {w : Word} {i : Instr},
      i.wellFormed Config.launch = true → encode Config.launch i = w → decode Config.launch w = .ok i :=
    fun hi he => he ▸ decode_encode (Config.standard_wf _ _ _).2.1 hi
  refine ⟨worked ?_ ?_, worked ?_ ?_, worked ?_ ?_, worked ?_ ?_, worked ?_ ?_, worked ?_ ?_, worked ?_ ?_,
    worked ?_ ?_, worked ?_ ?_, worked ?_ ?_⟩
  all_goals decide

end Sys2Proof
end

section
/-! Exactly the words R98 names are refused. -/

namespace Sys2Proof

variable {c : Config} {w : Word}

theorem Word.getLsbD_mask_seven (w : Word) : w.mask.getLsbD 7 = w.getLsbD 15 := by simp [Word.mask]

/-- A word is refused for its KIND when that is 110 or 111; of every other KIND, only for its reserved fields. -/
theorem decode_eq_reservedKind_iff : decode c w = .error .reservedKind ↔ w.kind = 6#3 ∨ w.kind = 7#3 := by
  rcases w.kind_cases with hk | hk | hk | hk | hk | hk | hk
  · simp [decode_kind_read hk, ite_eq_error_iff, hk]
  · simp [decode_kind_write hk, ite_eq_error_iff, hk]
  · simp [decode_kind_iack hk, ite_eq_error_iff, hk]
  · simp [decode_kind_srcUpdate hk, ite_eq_error_iff, hk]
  · simp [decode_kind_nmiIn hk, ite_eq_error_iff, hk]
  · simp [decode_kind_reset hk, ite_eq_error_iff, hk]
  · exact iff_of_true (decode_kind_reserved hk) hk

/-- A word is refused for a reserved field when a must-be-zero field of its KIND's format is not zero. -/
theorem decode_eq_nonZeroReservedField_iff : decode c w = .error .nonZeroReservedField ↔
    (w.kind = 0#3 ∧ (w.gap ≠ 0#3 ∨ w.data ≠ 0#8)) ∨
    (w.kind = 1#3 ∧ w.gap ≠ 0#3) ∨
    (w.kind = 2#3 ∧ (w.gap ≠ 0#3 ∨ w.addr ≠ 0#16 ∨ w.data ≠ 0#8)) ∨
    (w.kind = 3#3 ∧ (w.extractLsb' 16 13 ≠ 0#13 ∨ w.getLsbD 15 = true)) ∨
    (w.kind = 4#3 ∧ w.extractLsb' 1 28 ≠ 0#28) ∨
    (w.kind = 5#3 ∧ w.extractLsb' 0 29 ≠ 0#29) := by
  rcases w.kind_cases with hk | hk | hk | hk | hk | hk | hk
  · rw [decode_kind_read hk, ite_eq_error_iff, not_and_or]; simp [hk]
  · rw [decode_kind_write hk, ite_eq_error_iff]; simp [hk]
  · rw [decode_kind_iack hk, ite_eq_error_iff, not_and_or, not_and_or]; simp [hk]
  · rw [decode_kind_srcUpdate hk, ite_eq_error_iff, not_and_or, Word.getLsbD_mask_seven]; simp [hk]
  · rw [decode_kind_nmiIn hk, ite_eq_error_iff]; simp [hk]
  · rw [decode_kind_reset hk, ite_eq_error_iff]; simp [hk]
  · rw [decode_kind_reserved hk]; rcases hk with hk | hk <;> simp [hk]

/-- A step on a word that spells no transaction is the refusal of that name. -/
theorem Machine.step_of_decode_error {s : State} {rest : List Word} {e : DecodeError} (hp : s.pending = w :: rest)
    (hd : decode s.cfg w = .error e) : step s = .refused (refusalOf e) := by
  simp only [step, State.takeWord, hp, hd]

/-- Settles O4: the two refusals are characterised KIND by KIND, and a step answers `refusalOf` the decoder's error. -/
theorem malformedWordsRefused : Obligations.MalformedWordsRefused := by
  unfold Obligations.MalformedWordsRefused
  exact ⟨fun _ _ => decode_eq_reservedKind_iff, fun _ _ => decode_eq_nonZeroReservedField_iff,
    fun _ _ _ hp => ⟨Machine.step_of_decode_error hp, Machine.step_of_decode_error hp⟩⟩

end Sys2Proof
end

section
/-! Admission and outcomes (R118, R180, R201, R211): a transaction is stuck exactly where it is not admitted, and no rule
writes the outcome it begins with. -/

namespace Sys2Proof.Machine

variable {i : Instr} {s t : State} {m : Master} {ib : Bool}

/-- A master's transaction is admitted where its master and flag are. -/
theorem State.admitsInstr_iff (h : i.presenter = some (m, ib)) : s.AdmitsInstr i ↔ s.Admits m ib := by
  simp [State.AdmitsInstr, h]

/-- The environment's transactions are always admitted (R180). -/
theorem State.admitsInstr_of_environment (h : i.presenter = none) : s.AdmitsInstr i := by
  simp [State.AdmitsInstr, h]

/-- A transaction that is not admitted is a master's, and stuck. -/
theorem exec_of_not_admitsInstr (h : ¬ s.AdmitsInstr i) : exec i s = .next { s with outcome := .stuck } := by
  cases hp : i.presenter with
  | none => exact absurd (State.admitsInstr_of_environment hp) h
  | some p => exact exec_of_not_admits hp (mt (State.admitsInstr_iff hp).mpr h)

/-- No operation writes the outcome: admission alone does. -/
theorem Effect.outcome (h : Effect s i t) : t.outcome = s.outcome := by
  cases h <;> simp

/-- An admitted transaction that completes is done: its rule begins with the outcome done and keeps it. -/
theorem exec_outcome_of_admitsInstr (h : s.AdmitsInstr i) (hx : exec i s = .next t) : t.outcome = .done := by
  cases hp : i.presenter with
  | none =>
    rw [exec_of_environment hp] at hx
    exact (effect_of_body hx).outcome
  | some p =>
    rw [exec_of_admits hp ((State.admitsInstr_iff hp).mp h)] at hx
    exact (effect_of_body hx).outcome

/-- Settles O7, by the three lemmas of its clauses. -/
theorem stuckExactlyWhenNotAdmitted : Obligations.StuckExactlyWhenNotAdmitted := by
  unfold Obligations.StuckExactlyWhenNotAdmitted
  exact fun i s => ⟨exec_of_not_admitsInstr, fun h t => exec_outcome_of_admitsInstr h, State.admitsInstr_of_environment⟩

end Sys2Proof.Machine
end

section
/-! The memory transactions (40_memory_transactions.md R110 to R113): the byte a READ replies, the byte a WRITE stores, and
what a READ sees of an earlier WRITE. -/

namespace Sys2Proof.Machine

variable {s : State} {m : Master} {ib : Bool} {a : Addr}

/-- The byte a route names: of RAM where its region is RAM, else of ROM (R110). It is what a READ through a route of a
coherent table answers (`State.readRoute_routeOf`). -/
def State.routedByte (s : State) (r : RouteEntry) : Byte :=
  if r.region = .ram then s.ramByte r.base else s.romByte r.base

/-! ### READ (R110, R111) -/

/-- An admitted READ replies the byte its route names, and does nothing else. -/
theorem exec_rdMem_of_admits (hc : s.cfg.BlocksWf) (h : s.Coherent) (hm : s.Admits m ib)
    (ha : inIoWindow s.cfg a = false) : exec (.rdMem m ib a) s =
      .next { s.begun m ib with history := s.history ++ [.reply m (s.routedByte (s.routeOf a))] } := by
  have hread : (s.begun m ib).readRoute ((s.begun m ib).routeOf a) = .ok (s.routedByte (s.routeOf a)) :=
    State.readRoute_routeOf hc (h.begun m ib) ha
  rw [exec_of_admits rfl hm]
  simp only [body, hread]
  rfl

/-- On a coherent table the byte is that of the ROM block the overlay forces, else of the RAM or ROM block the live entry
names (R56, R57, R63). -/
theorem State.routedByte_routeOf (hc : s.cfg.SizesWf) (h : s.Coherent) (ha : inIoWindow s.cfg a = false) :
    let b := a.extractLsb' 12 4
    let pte := s.ptAt s.live b
    s.routedByte (s.routeOf a) =
      if s.romOvl = true ∧ s.cfg.ovlFirst ≤ b.toNat then
        s.romByte ((b.toNat - s.cfg.ovlFirst) % s.cfg.romBlocks * 4096 + a.toNat % 4096)
      else if pte.toNat < s.cfg.ramBlocks then s.ramByte (pte.toNat * 4096 + a.toNat % 4096)
      else s.romByte (pte.toNat % s.cfg.romBlocks * 4096 + a.toNat % 4096) := by
  intro b pte
  rw [State.routeOf_block hc ha, h, State.resolve_eq hc, decodePte, blockSize_eq hc]
  split
  · rfl
  · split <;> rfl

/-- Settles O16: the READ's word and admission, then `exec_rdMem_of_admits` with its byte written out. -/
theorem rdMemReplies : Obligations.RdMemReplies := by
  unfold Obligations.RdMemReplies
  refine fun m ib a => ⟨fun c hc ha => ?_, stuckUnlessAdmitted rfl, fun s hc h hm ha => ?_⟩
  · rw [decode_encodeRead, decodeRead_memory m ib hc.2.1 ((inIoWindow_eq_false_iff c a).mpr ha)]
  · have ha' : inIoWindow s.cfg a = false := (inIoWindow_eq_false_iff s.cfg a).mpr ha
    rw [exec_rdMem_of_admits hc.2.2 h hm ha', State.routedByte_routeOf hc.1 h ha']

/-! ### WRITE (R112) -/

/-- An admitted WRITE stores its byte where its route is to RAM, which is then writable, and is discarded where it is to ROM,
which is not. -/
theorem exec_wrMem_cases (hc : s.cfg.BlocksWf) (h : s.Coherent) (hm : s.Admits m ib) (ha : inIoWindow s.cfg a = false)
    (d : Byte) :
    ((s.routeOf a).region = .ram ∧ (s.routeOf a).writable = true ∧
      exec (.wrMem m ib a d) s = .next ((s.begun m ib).withRamByte (s.routeOf a).base d)) ∨
    ((s.routeOf a).region = .rom ∧ (s.routeOf a).writable = false ∧
      exec (.wrMem m ib a d) s = .next (s.begun m ib)) := by
  rcases State.routeOf_bounds hc h ha with ⟨hr, hw, hlt⟩ | ⟨hr, hw, -⟩
  · have hstore : (s.begun m ib).writeRoute ((s.begun m ib).routeOf a) d =
        .ok ((s.begun m ib).withRamByte (s.routeOf a).base d) := State.writeRoute_ram d hr hw hlt
    exact .inl ⟨hr, hw, by rw [exec_of_admits rfl hm]; simp only [body, hstore]⟩
  · have hdiscard : (s.begun m ib).writeRoute ((s.begun m ib).routeOf a) d = .ok (s.begun m ib) :=
      State.writeRoute_rom d hr
    exact .inr ⟨hr, hw, by rw [exec_of_admits rfl hm]; simp only [body, hdiscard]⟩

/-- Settles O17: the WRITE's word and admission, then the two cases of `exec_wrMem_cases`. -/
theorem wrMemStores : Obligations.WrMemStores := by
  unfold Obligations.WrMemStores
  refine fun m ib a d => ⟨fun c hc ha => ?_, stuckUnlessAdmitted rfl, fun s hc h hm ha => ?_⟩
  · rw [decode_encodeWrite, decodeWrite_memory m ib d hc.2.1 ((inIoWindow_eq_false_iff c a).mpr ha)]
  · rcases exec_wrMem_cases hc.2.2 h hm ((inIoWindow_eq_false_iff s.cfg a).mpr ha) d with ⟨hr, hw, hx⟩ | ⟨hr, hw, hx⟩
    · refine ⟨_, hx, rfl, fun _ => ⟨hr, ?_, fun o ho => ?_⟩, fun hn => by simp [hw] at hn⟩
      · rw [State.ramByte_withRamByte, if_pos rfl]
      · rw [State.ramByte_withRamByte, if_neg ho]
        rfl
    · exact ⟨_, hx, rfl, fun hn => by simp [hw] at hn, fun _ => ⟨hr, rfl, fun o => rfl⟩⟩

/-! ### READ after WRITE (R113, R71) -/

/-- A stored byte is seen through the RAM routes at its offset and through no other. -/
theorem State.routedByte_withRamByte (o : Nat) (d : Byte) (r : RouteEntry) :
    (s.withRamByte o d).routedByte r = if r.region = .ram ∧ r.base = o then d else s.routedByte r := by
  have hrom : (s.withRamByte o d).romByte r.base = s.romByte r.base := rfl
  rw [State.routedByte, State.routedByte, State.ramByte_withRamByte, hrom]
  by_cases hr : r.region = .ram <;> simp [hr]

/-- Two RAM routes of a coherent table at the same offset are the same route: every RAM route is writable (R64). -/
theorem State.routeOf_eq_iff_of_ram (hc : s.cfg.BlocksWf) (h : s.Coherent) {a' : Addr}
    (ha' : inIoWindow s.cfg a' = false) (hr : (s.routeOf a).region = .ram) (hw : (s.routeOf a).writable = true) :
    s.routeOf a' = s.routeOf a ↔ (s.routeOf a').region = .ram ∧ (s.routeOf a').base = (s.routeOf a).base := by
  constructor
  · intro e
    rw [e]
    exact ⟨hr, rfl⟩
  · rintro ⟨hr', hb⟩
    have hw' : (s.routeOf a').writable = true := by
      rcases State.routeOf_bounds hc h ha' with ⟨-, hw', -⟩ | ⟨hrom, -, -⟩
      · exact hw'
      · rw [hrom] at hr'; cases hr'
    calc s.routeOf a'
      _ = ⟨(s.routeOf a').region, (s.routeOf a').base, (s.routeOf a').writable⟩ := rfl
      _ = ⟨(s.routeOf a).region, (s.routeOf a).base, (s.routeOf a).writable⟩ := by rw [hr', hb, hw', hr, hw]

/-- Settles O18: the READ after the WRITE is from a coherent table too, with the routes of the state before it, and replies
by them the written byte (`State.routedByte_withRamByte`) or, where the WRITE was discarded, what it replied before. -/
theorem writeThenReadAlias : Obligations.WriteThenReadAlias := by
  unfold Obligations.WriteThenReadAlias
  intro s m m' a a' d hc h ha ha'
  rw [← inIoWindow_eq_false_iff] at ha ha'
  have hread : exec (.rdMem m' false a') s = _ :=
    exec_rdMem_of_admits hc.2.2 h (State.admits_of_not_boundary m') ha'
  rcases exec_wrMem_cases hc.2.2 h (State.admits_of_not_boundary m) ha d with ⟨hr, hw, hx⟩ | ⟨-, hw, hx⟩
  · refine ⟨_, _, _, hx, hread, exec_rdMem_of_admits hc.2.2 (h.exec hx) (State.admits_of_not_boundary m') ha', ?_⟩
    rw [State.routedByte_withRamByte]
    simp only [hw, true_and, State.routeOf_eq_iff_of_ram hc.2.2 h ha' hr hw]
    rfl
  · refine ⟨_, _, _, hx, hread, exec_rdMem_of_admits hc.2.2 (h.exec hx) (State.admits_of_not_boundary m') ha', ?_⟩
    simp only [hw, Bool.false_eq_true, false_and, if_false]
    rfl

end Sys2Proof.Machine
end

section
/-! The translation-control registers (41_mmu_registers.md R130 to R141): what each reads as, what a write of each does, and
what a configured page entry makes a READ reply. Each register's word decodes by the round trip of the encoder; each write's
effect is read off its rule. -/

namespace Sys2Proof.Machine

variable {c : Config} {s t : State} {m : Master} {ib : Bool}

/-! ### Register transactions, from their encoding -/

/-- A READ whose encoding stands at the register's address, and whose rule only replies. -/
theorem readsRegister_of_encode (hc : c.Wf) {i : Instr} {a : Addr} {value : State → Byte}
    (hp : i.presenter = some (m, ib)) (hi : i.wellFormed c = true) (he : encode c i = encodeRead m ib a)
    (hb : ∀ s, body i s = .next (s.reply m (value s))) (hv : ∀ s : State, value (s.begun m ib) = value s) :
    ReadsRegister c i m ib a value := by
  obtain ⟨-, hw, -⟩ := hc
  have hd : decode c (encodeRead m ib a) = .ok i := he ▸ decode_encode hw hi
  rw [decode_encodeRead] at hd
  exact readsRegister hp (Except.ok.inj hd) hb hv

/-- A WRITE whose encoding stands at the register's address, and whose rule completes with the effect. -/
theorem writesRegister_of_encode (hc : c.Wf) {i : Instr} {a : Addr} {d : Byte} {effect : State → State → Prop}
    (hp : i.presenter = some (m, ib)) (hi : i.wellFormed c = true) (he : encode c i = encodeWrite m ib a d)
    (hb : ∀ s, ∃ t, body i s = .next t ∧ effect s t) : WritesRegister c i m ib a d effect := by
  obtain ⟨-, hw, -⟩ := hc
  have hd : decode c (encodeWrite m ib a d) = .ok i := he ▸ decode_encode hw hi
  rw [decode_encodeWrite] at hd
  exact writesRegister hp (Except.ok.inj hd) hb

/-! ### READs (R130, R132, R134, R136, R138) -/

/-- Settles O20: each READ's rule is one reply of its register's byte. -/
theorem mmuRegisterReads : Obligations.MmuRegisterReads := by
  unfold Obligations.MmuRegisterReads
  intro c m ib hc
  refine ⟨?taskSel, ?editTask, ?mmuCtrl, fun n => ?page, fun a hlo hhi => ?unimplemented, rfl⟩
  case taskSel => exact readsRegister_of_encode hc rfl rfl rfl (fun _ => rfl) (fun _ => rfl)
  case editTask => exact readsRegister_of_encode hc rfl rfl rfl (fun _ => rfl) (fun _ => rfl)
  case mmuCtrl => exact readsRegister_of_encode hc rfl rfl rfl (fun _ => rfl) (fun _ => rfl)
  case page =>
    rw [registerAt_page]
    exact readsRegister_of_encode hc rfl rfl rfl (fun _ => rfl) (fun _ => rfl)
  case unimplemented =>
    have ha : isUnimplemented c (registerAt c a) = true := isUnimplemented_registerAt hc.2.1 hlo hhi
    exact readsRegister_of_encode hc rfl ha rfl (fun _ => rfl) (fun _ => rfl)

/-! ### WRITEs of the selectors and the mode bits (R131, R133, R135) -/

/-- With paging disabled the selected task has no part in `resolve(LIVE, b)`, so selecting another keeps the
table coherent. -/
theorem State.Coherent.selectTask_unpaged (h : s.Coherent) (hp : s.pgEn = false) (k : Nib) :
    ({ s with taskReq := k } : State).Coherent := by
  intro b
  have hrow : ({ s with taskReq := k } : State).ptAt ({ s with taskReq := k } : State).live b = s.ptAt s.live b := by
    rw [State.ptAt_live_unpaged hp, State.ptAt_live_unpaged (by exact hp)]
  rw [State.resolve, hrow]
  exact h b

/-- Settles O21: the sync makes the table coherent, and is no change where the table is coherent for the new task already. -/
theorem wrTaskSelEffect : Obligations.WrTaskSelEffect := by
  unfold Obligations.WrTaskSelEffect
  intro c m ib d hc
  refine writesRegister_of_encode hc rfl rfl rfl fun s => ⟨_, rfl, rfl, State.sync_coherent, ?_, ?_⟩
  · intro hp h
    rw [(h.selectTask_unpaged hp _).sync_eq]
  · intro hsame h
    rw [taskField, ← hsame]
    exact h.sync_eq 0 15

/-- Settles O22: the rule writes `EDIT_TASK` and syncs nothing. -/
theorem wrEditTaskEffect : Obligations.WrEditTaskEffect := by
  unfold Obligations.WrEditTaskEffect
  intro c m ib d hc
  exact writesRegister_of_encode hc rfl rfl rfl fun s => ⟨_, rfl, rfl⟩

/-- Settles O23: the sync makes the table coherent, and is no change where the bits held already made it so. -/
theorem wrMmuCtrlEffect : Obligations.WrMmuCtrlEffect := by
  unfold Obligations.WrMmuCtrlEffect
  intro c m ib d hc
  refine writesRegister_of_encode hc rfl rfl rfl fun s => ⟨_, rfl, rfl, State.sync_coherent, ?_⟩
  intro hpg hovl h
  rw [pgEnField, romOvlField, ← hpg, ← hovl]
  exact h.sync_eq 0 15

/-- Settles O25: the three rules answer the state they proceed from. -/
theorem discardedRegisterWrites : Obligations.DiscardedRegisterWrites := by
  unfold Obligations.DiscardedRegisterWrites
  intro c m ib d hc
  refine ⟨fun a hlo hhi => ?_, ?_, ?_⟩
  · have ha : isUnimplemented c (registerAt c a) = true := isUnimplemented_registerAt hc.2.1 hlo hhi
    exact writesRegister_of_encode hc rfl ha rfl fun s => ⟨s, rfl, rfl⟩
  · exact writesRegister_of_encode hc rfl rfl rfl fun s => ⟨s, rfl, rfl⟩
  · exact writesRegister_of_encode hc rfl rfl rfl fun s => ⟨s, rfl, rfl⟩

/-! ### WRITEs of a page register (R137) -/

/-- The row under edit is the live task's, so a page-register write must sync. -/
abbrev State.EditsLive (s : State) : Prop := s.pgEn = true ∧ s.editTask = s.taskReq

/-- `CONFIGURE`: the entry stored, and its block synced where the row under edit is live. It is the rule of WR_PAGE
(`body_wrPage`). -/
def State.configured (s : State) (n : Nib) (d : Byte) : State :=
  if s.EditsLive then (s.withPage n d).sync n n else s.withPage n d

theorem body_wrPage (n : Nib) (d : Byte) : body (.wrPage m ib n d) s = .next (s.configured n d) := rfl

theorem State.configured_of_live (hl : s.EditsLive) (n : Nib) (d : Byte) :
    s.configured n d = (s.withPage n d).sync n n := if_pos hl

theorem State.configured_of_not_live (hl : ¬ s.EditsLive) (n : Nib) (d : Byte) :
    s.configured n d = s.withPage n d := if_neg hl

/-- Only the Page Table and the routing table are written. -/
theorem State.configured_frame (n : Nib) (d : Byte) :
    s.configured n d = { s with pt := (s.configured n d).pt, route := (s.configured n d).route } := by
  unfold State.configured
  split <;> rfl

/-- The entry is stored whether or not its row is live. -/
@[simp] theorem State.configured_pt (n : Nib) (d : Byte) : (s.configured n d).pt = (s.withPage n d).pt := by
  unfold State.configured
  split <;> rfl

/-- The routing table changes in block `n` alone, and there only where the row under edit is live. -/
theorem State.configured_route_get (n b : Nib) (d : Byte) : (s.configured n d).route.get b =
    if s.pgEn = true ∧ s.editTask = s.taskReq ∧ b = n
    then (s.configured n d).resolve (s.configured n d).live n else s.route.get b := by
  by_cases hl : s.EditsLive
  · have hrange : n ≤ b ∧ b ≤ n ↔ b = n := ⟨fun h => BitVec.le_antisymm h.2 h.1, fun h => by simp [h]⟩
    have hresolve : ((s.withPage n d).sync n n).resolve ((s.withPage n d).sync n n).live n =
        (s.withPage n d).resolve (s.withPage n d).live n := State.resolve_live_congr rfl rfl rfl rfl rfl n
    rw [State.configured_of_live hl, State.sync_get, hresolve]
    by_cases hb : b = n
    · rw [if_pos (hrange.mpr hb), if_pos ⟨hl.1, hl.2, hb⟩, hb]
    · rw [if_neg (mt hrange.mp hb), if_neg fun ⟨_, _, h⟩ => hb h]
      rfl
  · rw [State.configured_of_not_live hl, if_neg fun ⟨hp, he, _⟩ => hl ⟨hp, he⟩]
    rfl

/-- Settles O24, by the frame of `configured` and what it writes to the two tables. -/
theorem wrPageEffect : Obligations.WrPageEffect := by
  unfold Obligations.WrPageEffect
  intro c m ib n d hc
  rw [registerAt_page]
  refine writesRegister_of_encode hc rfl rfl rfl fun s =>
    ⟨s.configured n d, body_wrPage n d, State.configured_frame n d, fun k b => ?_, fun b => s.configured_route_get n b d⟩
  rw [State.configured_pt, State.withPage_get]

/-! ### The configure law (R140) -/

/-- A byte configured in the live row is the live entry of its block. -/
theorem State.configured_ptAt_live (hc : s.cfg.SizesWf) (hl : s.EditsLive) (n : Nib) (d : Byte) :
    (s.configured n d).ptAt (s.configured n d).live n = d := by
  obtain ⟨hp, he⟩ := hl
  rw [State.configured_of_live ⟨hp, he⟩]
  have hrow : ((s.withPage n d).sync n n).ptAt ((s.withPage n d).sync n n).live n =
      ((s.withPage n d).pt.get s.taskReq).get n := by
    rw [State.ptAt_live (by exact hc), if_pos (by exact hp)]
    rfl
  rw [hrow, State.withPage_get, if_pos ⟨he.symm, rfl⟩]

@[simp] theorem State.configured_cfg (n : Nib) (d : Byte) : (s.configured n d).cfg = s.cfg := by
  rw [State.configured_frame]

@[simp] theorem State.configured_romOvl (n : Nib) (d : Byte) : (s.configured n d).romOvl = s.romOvl := by
  rw [State.configured_frame]

@[simp] theorem State.configured_ramByte (n : Nib) (d : Byte) (o : Nat) : (s.configured n d).ramByte o = s.ramByte o := by
  rw [State.configured_frame]
  rfl

@[simp] theorem State.configured_romByte (n : Nib) (d : Byte) (o : Nat) : (s.configured n d).romByte o = s.romByte o := by
  rw [State.configured_frame]
  rfl

/-- Where the overlay does not cover it, a block configured in the live row resolves to its byte's decode. -/
theorem State.configured_resolve_live (hc : s.cfg.SizesWf) (hl : s.EditsLive) {n : Nib}
    (hn : ¬ (s.romOvl = true ∧ s.cfg.ovlFirst ≤ n.toNat)) (d : Byte) :
    (s.configured n d).resolve (s.configured n d).live n = decodePte s.cfg d := by
  rw [State.resolve_eq (by simpa using hc), State.configured_ptAt_live hc hl, State.configured_romOvl,
    State.configured_cfg, if_neg hn]

/-- And an address of the block then reads the byte that decode names. -/
theorem State.configured_routedByte (hc : s.cfg.SizesWf) (hl : s.EditsLive) {a : Addr}
    (ha : inIoWindow s.cfg a = false) (hn : ¬ (s.romOvl = true ∧ s.cfg.ovlFirst ≤ (a.extractLsb' 12 4).toNat))
    (d : Byte) (h : (s.configured (a.extractLsb' 12 4) d).Coherent) :
    (s.configured (a.extractLsb' 12 4) d).routedByte ((s.configured (a.extractLsb' 12 4) d).routeOf a) =
      if d.toNat < s.cfg.ramBlocks then s.ramByte (d.toNat * 4096 + a.toNat % 4096)
      else s.romByte (d.toNat % s.cfg.romBlocks * 4096 + a.toNat % 4096) := by
  rw [State.routedByte_routeOf (by simpa using hc) h (by simpa using ha), State.configured_ptAt_live hc hl,
    State.configured_romOvl, State.configured_cfg, if_neg hn, State.configured_ramByte, State.configured_romByte]

/-- The law of one page write, inside an instruction, while the row under edit is live. -/
theorem exec_wrPage_live_configures (hc : s.cfg.Wf) (h : s.Coherent) (hl : s.EditsLive) {a : Addr}
    (ha : inIoWindow s.cfg a = false)
    (hn : ¬ (s.romOvl = true ∧ s.cfg.ovlFirst ≤ (a.extractLsb' 12 4).toNat)) (m' : Master) (d : Byte) :
    ∃ u, exec (.wrPage m false (a.extractLsb' 12 4) d) s = .next u ∧
      u.resolve u.live (a.extractLsb' 12 4) = decodePte s.cfg d ∧
      exec (.rdMem m' false a) u = .next { u.begun m' false with history := u.history ++
        [.reply m' (if d.toNat < s.cfg.ramBlocks then s.ramByte (d.toNat * 4096 + a.toNat % 4096)
          else s.romByte (d.toNat % s.cfg.romBlocks * 4096 + a.toNat % 4096))] } := by
  have hpage : exec (.wrPage m false (a.extractLsb' 12 4) d) s =
      .next ((s.begun m false).configured (a.extractLsb' 12 4) d) := exec_of_admits rfl (State.admits_of_not_boundary m)
  have hcoherent := h.exec hpage
  refine ⟨_, hpage, State.configured_resolve_live (s := s.begun m false) hc.1 hl hn d, ?_⟩
  rw [exec_rdMem_of_admits (by simpa using hc.2.2) hcoherent (State.admits_of_not_boundary m') (by simpa using ha),
    State.configured_routedByte (s := s.begun m false) hc.1 hl ha hn d hcoherent]
  rfl

/-- Settles O26: after the write of EDIT_TASK the row under edit is the live task's, and the law is that of the page
write. -/
theorem configureLaw : Obligations.ConfigureLaw := by
  unfold Obligations.ConfigureLaw
  intro s m m' d v a hc h hp ht ha hovl
  rw [← inIoWindow_eq_false_iff] at ha
  have hedit : exec (.wrEditTask m false d) s = .next { s.begun m false with editTask := taskField d } :=
    exec_of_admits rfl (State.admits_of_not_boundary m)
  obtain ⟨u, hu⟩ := exec_wrPage_live_configures (s := { s.begun m false with editTask := taskField d }) (m := m) hc
    (h.exec hedit) ⟨hp, ht.symm⟩ ha hovl m' v
  exact ⟨_, u, hedit, hu⟩

/-! ### Routing and interrupts are separate (R141, R153) -/

/-- `s` with the translation state of `t` (R25 to R32). -/
def State.withTranslationOf (s t : State) : State :=
  { s with
    pt := t.pt, taskReq := t.taskReq, editTask := t.editTask, pgEn := t.pgEn, romOvl := t.romOvl, route := t.route }

/-- The rules of the routing writes write translation state alone. -/
theorem body_routingWrite {n : Nib} {d : Byte} {i : Instr}
    (hi : i ∈ [Instr.wrTaskSel m ib d, .wrEditTask m ib d, .wrMmuCtrl m ib d, .wrPage m ib n d])
    (hb : body i s = .next t) : t = s.withTranslationOf t := by
  simp only [List.mem_cons, List.not_mem_nil, or_false] at hi
  rcases hi with rfl | rfl | rfl | rfl
  · cases hb; rfl
  · cases hb; rfl
  · cases hb; rfl
  · rw [body_wrPage] at hb
    cases hb
    unfold State.configured
    split <;> rfl

/-- Settles O44: the frame of the routing writes' rules, and for CPU_CTRL those of `set_halt` and `recalc_nmi`. -/
theorem routingAndInterruptsAreSeparate : Obligations.RoutingAndInterruptsAreSeparate := by
  unfold Obligations.RoutingAndInterruptsAreSeparate
  refine fun m ib n d s t => ⟨fun i hi hx => ?_, fun hx => ?_⟩
  · rcases exec_cases hx with rfl | ⟨y, hb, -⟩
    · exact ⟨rfl, rfl, rfl, rfl, rfl, rfl, rfl, rfl⟩
    · rw [body_routingWrite hi hb]
      exact ⟨rfl, rfl, rfl, rfl, rfl, rfl, rfl, rfl⟩
  · rcases exec_cases hx with rfl | ⟨y, hb, -⟩
    · exact ⟨rfl, rfl, rfl, rfl, rfl, rfl, rfl, rfl⟩
    · cases hb
      simp

end Sys2Proof.Machine
end

section
/-! The interrupt and CPU-control registers (42_interrupt_registers.md R150 to R169): what each reads as, and what a write of
each does. The writes of CPU_CTRL are read off `set_halt` and `recalc_nmi`, those that can move an interrupt line off
`recalc()`. -/

namespace Sys2Proof.Machine

variable {s : State} {m : Master} {ib : Bool}

/-! ### READs (R150, R155, R157, R164, R168) -/

/-- Settles O27: each READ's rule is one reply of its register's byte. -/
theorem interruptRegisterReads : Obligations.InterruptRegisterReads := by
  unfold Obligations.InterruptRegisterReads
  intro c m ib hc
  refine ⟨?_, ?_, ?_, ?_, ?_⟩
  all_goals exact readsRegister_of_encode hc rfl rfl rfl (fun _ => rfl) (fun _ => rfl)

/-! ### CPU_CTRL (R151, R152, R208, R210) -/

/-- `yield_to` after the two `set_halt` of CPU_CTRL, the DMA CPU's before the main CPU's. -/
def State.yieldAfterHalts (s : State) (dma main : Bool) (w : Master) : Option Master :=
  ({ s with yieldTo := s.yieldAfter .dma dma w } : State).yieldAfter .main main w

/-- The two `set_halt` of CPU_CTRL set both bits, and append their events in order, each on a change of its bit. -/
theorem State.setHalt_setHalt_eq (dma main : Bool) (w : Master) :
    (s.setHalt .dma dma w).setHalt .main main w = { s with
      haltDma := dma
      haltMain := main
      yieldTo := s.yieldAfterHalts dma main w
      history := s.history ++ changeEvent .haltDma s.haltDma dma ++ changeEvent .haltMain s.haltMain main } := by
  rw [State.setHalt_eq, State.setHalt_eq]
  rfl

/-- The rule of WR_CPU_CTRL: the two halt bits, then the NMI trigger. -/
theorem body_wrCpuCtrl (d : Byte) : body (.wrCpuCtrl m ib d) s = .next { s with
    haltDma := dmaHaltField d
    haltMain := mainHaltField d
    nmiCtl := nmiTrigField d
    nmiLast := nmiTrigField d
    firstNmiArmed := s.firstNmiArmed && !nmiQualifies s.cfg.nmiEdge s.nmiLast (nmiTrigField d)
    yieldTo := s.yieldAfterHalts (dmaHaltField d) (mainHaltField d) m
    history := s.history ++ changeEvent .haltDma s.haltDma (dmaHaltField d) ++
      changeEvent .haltMain s.haltMain (mainHaltField d) ++
      (if s.nmiPulses (nmiTrigField d) then [.nmiPulse] else []) } := by
  simp only [body]
  rw [State.setHalt_setHalt_eq, State.recalcNmi_eq]
  rfl

/-- An edge pulses exactly where the first-NMI guard is not armed. -/
theorem State.nmiPulses_iff (v : Bool) :
    s.nmiPulses v = true ↔ NmiOccurs s.cfg.nmiEdge s.nmiLast v ∧ s.firstNmiArmed = false := by
  rw [State.nmiPulses, Bool.and_eq_true, nmiQualifies_iff, Bool.not_eq_true']

/-- Settles O28: the rule is `body_wrCpuCtrl`, whose guard is disarmed exactly on an edge. -/
theorem wrCpuCtrlEffect : Obligations.WrCpuCtrlEffect := by
  unfold Obligations.WrCpuCtrlEffect
  intro c m ib d hc
  refine writesRegister_of_encode hc rfl rfl rfl fun s =>
    ⟨_, body_wrCpuCtrl d, rfl, fun hedge => ?disarmed, fun hno => ?kept, rfl, s.nmiPulses_iff _⟩
  case disarmed =>
    have hq : nmiQualifies s.cfg.nmiEdge s.nmiLast (nmiTrigField d) = true := (nmiQualifies_iff _ _ _).mpr hedge
    simp [hq]
  case kept =>
    have hq : nmiQualifies s.cfg.nmiEdge s.nmiLast (nmiTrigField d) = false :=
      Bool.eq_false_iff.mpr (mt (nmiQualifies_iff _ _ _).mp hno)
    simp [hq]

/-- The trigger level held already is no edge. -/
theorem State.recalcNmi_self : s.recalcNmi s.nmiLast = s := by
  simp [State.recalcNmi_eq, State.nmiPulses]

/-- A write of the bits CPU_CTRL holds, where the NMI input last had the trigger's level, changes nothing. -/
theorem body_wrCpuCtrl_of_held {d : Byte} (hd : s.haltDma = dmaHaltField d) (hm : s.haltMain = mainHaltField d)
    (hc : s.nmiCtl = nmiTrigField d) (hl : s.nmiLast = nmiTrigField d) : body (.wrCpuCtrl m ib d) s = .next s := by
  have hdma : s.setHalt .dma (dmaHaltField d) m = s := hd ▸ State.setHalt_self .dma m
  have hmain : s.setHalt .main (mainHaltField d) m = s := hm ▸ State.setHalt_self .main m
  have hctl : ({ s with nmiCtl := nmiTrigField d } : State) = s := hc ▸ rfl
  have hnmi : s.recalcNmi (nmiTrigField d) = s := hl ▸ State.recalcNmi_self
  simp only [body, hdma, hmain, hctl, hnmi]

/-- Settles O29: the first write leaves its bits held, so the second changes nothing. -/
theorem cpuCtrlRewriteIsSilent : Obligations.CpuCtrlRewriteIsSilent := by
  unfold Obligations.CpuCtrlRewriteIsSilent
  intro s m m' d
  have hfirst := (exec_of_admits rfl (State.admits_of_not_boundary m)).trans
    (body_wrCpuCtrl (s := s.begun m false) (m := m) (ib := false) d)
  refine ⟨_, hfirst, ?_⟩
  rw [exec_of_admits rfl (State.admits_of_not_boundary m'), State.begun_false]
  exact body_wrCpuCtrl_of_held rfl rfl rfl rfl

/-! ### IRQ_EN and FIRQ_EN (R156, R158, R159, R213) -/

/-- `recalc()` with the two levels written out (R203). -/
theorem State.recalc_eq_decide : s.recalc =
    let irq := decide (s.src &&& s.irqEn &&& s.cfg.routeIrq ≠ 0#8)
    let firq := decide (s.src &&& s.firqEn &&& s.cfg.routeFirq ≠ 0#8)
    { s with irqLine := irq, firqLine := firq, history := s.history ++ s.recalcEvents irq firq } := by
  rw [State.recalc_eq, lineLevel_eq, lineLevel_eq]

/-- Settles O30: the rules recalculate, and the level of the other line has no new input. -/
theorem enableMaskWrites : Obligations.EnableMaskWrites := by
  unfold Obligations.EnableMaskWrites
  intro c m ib d hc
  constructor
  · refine writesRegister_of_encode hc rfl rfl rfl fun s => ⟨_, rfl, State.recalc_eq_decide, fun ⟨_, hfirq⟩ => ?_⟩
    rw [State.recalc_firqLine, hfirq]
  · refine writesRegister_of_encode hc rfl rfl rfl fun s => ⟨_, rfl, State.recalc_eq_decide, fun ⟨hirq, _⟩ => ?_⟩
    rw [State.recalc_irqLine, hirq]

/-- Settles O31: the recalculated line is at its level with the mask written, bit by bit `lineLevel_iff`. -/
theorem maskingTakesEffectAtOnce : Obligations.MaskingTakesEffectAtOnce := by
  unfold Obligations.MaskingTakesEffectAtOnce
  intro s m d
  refine ⟨_, _, exec_of_admits rfl (State.admits_of_not_boundary m),
    exec_of_admits rfl (State.admits_of_not_boundary m), State.recalc_src _, State.recalc_src _, ?irq, ?firq⟩
  case irq => rw [State.recalc_irqLine]; exact lineLevel_iff _ _ _
  case firq => rw [State.recalc_firqLine]; exact lineLevel_iff _ _ _

/-! ### INT_STATUS and INT_SWI (R162, R165) -/

/-- Settles O32: the rule replies and recalculates with the latched sources cleared. -/
theorem rdIntStatusEffect : Obligations.RdIntStatusEffect := by
  unfold Obligations.RdIntStatusEffect
  intro c m ib hc
  have hd : decode c (encodeRead m ib (registerAt c 0xFCC6#16)) = .ok (.rdIntStatus m ib) :=
    decode_encode (i := .rdIntStatus m ib) hc.2.1 rfl
  refine ⟨hd, stuckUnlessAdmitted rfl, rfl, fun s ha => ⟨_, exec_of_admits rfl ha, fun k hk => ?cleared, ?recalculated⟩⟩
  case cleared =>
    rw [State.recalc_src]
    exact srcAfterStatusRead_getLsbD _ _ hk
  case recalculated =>
    simp only [State.recalc_src]
    exact State.recalc_eq_decide

/-- Settles O33: the rule recalculates with source 7 replaced. -/
theorem wrIntSwiEffect : Obligations.WrIntSwiEffect := by
  unfold Obligations.WrIntSwiEffect
  intro c m ib d hc
  refine writesRegister_of_encode hc rfl rfl rfl fun s => ⟨_, rfl, ?swi, fun k hk => ?kept, ?recalculated⟩
  case swi => rw [State.recalc_src, srcWithSwi_getLsbD]; rfl
  case kept => rw [State.recalc_src, srcWithSwi_getLsbD, if_pos hk]
  case recalculated =>
    simp only [State.recalc_src]
    exact State.recalc_eq_decide

end Sys2Proof.Machine
end

section
/-! The sideband transactions (43_sideband.md R181 to R187): IACK, SRC_UPDATE, NMI_IN and RESET. The last three are the
environment's, so each is its rule (`exec_of_environment`) and is never stuck. -/

namespace Sys2Proof.Machine

variable {s : State} {m : Master} {ib v : Bool} {d : Byte}

/-! ### IACK (R181) -/

/-- The word of an IACK, field by field (R84), is the encoder's. -/
theorem encodeIack_eq_append (m : Master) (ib : Bool) : encodeRW 0b010#3 m ib 0#16 0#8 =
    0b010#3 ++ BitVec.ofBool (decide (m = .dma)) ++ BitVec.ofBool ib ++ 0#27 := by
  cases m <;> cases ib <;> rfl

/-- Settles O34: IACK's rule is one reply of the vector. -/
theorem iackReplies : Obligations.IackReplies := by
  unfold Obligations.IackReplies
  intro c m ib
  rw [← encodeIack_eq_append]
  exact ⟨decode_encodeIack, stuckUnlessAdmitted rfl, rfl, fun s ha => exec_of_admits rfl ha⟩

/-! ### SRC_UPDATE (R183) -/

/-- Settles O35: the rule recalculates with the sources updated, bit by bit `srcAfterUpdate_getLsbD`. -/
theorem srcUpdateEffect : Obligations.SrcUpdateEffect := by
  unfold Obligations.SrcUpdateEffect
  refine ⟨fun c w hkind hzero h15 => ?decodes,
    fun mask val s => ⟨_, exec_of_environment rfl s, fun k hk => ?sources, ?recalculated⟩⟩
  case decodes =>
    have h7 : w.mask.getLsbD 7 = false := w.getLsbD_mask_seven.trans h15
    exact (decode_kind_srcUpdate hkind).trans (if_pos ⟨hzero, h7⟩)
  case sources =>
    rw [State.recalc_src]
    exact srcAfterUpdate_getLsbD _ _ _ _ hk
  case recalculated =>
    simp only [State.recalc_src]
    exact State.recalc_eq_decide

/-! ### NMI_IN (R184, R208) -/

/-- The word of an NMI_IN, field by field (R84), is the encoder's. -/
theorem encodeN_eq_append (v : Bool) : encodeN v = 0b100#3 ++ 0#28 ++ BitVec.ofBool v := by
  cases v <;> rfl

/-- A level that is no edge is only remembered. -/
theorem State.recalcNmi_of_no_edge (h : ¬ NmiOccurs s.cfg.nmiEdge s.nmiLast v) :
    s.recalcNmi v = { s with nmiLast := v } := by
  rw [← nmiQualifies_iff] at h
  exact if_neg h

/-- An edge with the first-NMI guard armed disarms it. -/
theorem State.recalcNmi_of_armed (h : NmiOccurs s.cfg.nmiEdge s.nmiLast v) (ha : s.firstNmiArmed = true) :
    s.recalcNmi v = { s with nmiLast := v, firstNmiArmed := false } := by
  rw [← nmiQualifies_iff] at h
  exact (if_pos h).trans (if_pos ha)

/-- An edge with the guard not armed pulses. -/
theorem State.recalcNmi_of_not_armed (h : NmiOccurs s.cfg.nmiEdge s.nmiLast v) (ha : s.firstNmiArmed = false) :
    s.recalcNmi v = { s with nmiLast := v, history := s.history ++ [.nmiPulse] } := by
  rw [← nmiQualifies_iff] at h
  exact (if_pos h).trans (if_neg (Bool.eq_false_iff.mp ha))

/-- NMI_IN is `recalc_nmi` of its bit. -/
theorem exec_nmiIn (v : Bool) (s : State) : exec (.nmiIn v) s = .next (s.accepted.recalcNmi v) :=
  exec_of_environment rfl s

/-- Settles O36, by the three cases of `recalc_nmi`. -/
theorem nmiInEffect : Obligations.NmiInEffect := by
  unfold Obligations.NmiInEffect
  intro c v s
  rw [← encodeN_eq_append, exec_nmiIn]
  refine ⟨decode_encodeN v, fun hno => ?_, fun hedge harmed => ?_, fun hedge harmed => ?_⟩
  · exact congrArg _ (State.recalcNmi_of_no_edge (s := s.accepted) hno)
  · exact congrArg _ (State.recalcNmi_of_armed (s := s.accepted) hedge harmed)
  · exact congrArg _ (State.recalcNmi_of_not_armed (s := s.accepted) hedge harmed)

/-! ### The edge detector CPU_CTRL and NMI_IN share (R38, R184) -/

/-- NMI_IN of the level presented last changes nothing of the block. -/
theorem exec_nmiIn_of_held (h : s.nmiLast = v) : exec (.nmiIn v) s = .next { s with outcome := .done } := by
  have hself : s.accepted.recalcNmi v = s.accepted := h ▸ State.recalcNmi_self
  rw [exec_nmiIn, hself]
  rfl

/-- A CPU_CTRL write of the trigger level presented last leaves the guard, and appends only what its halt bits do. -/
theorem body_wrCpuCtrl_of_nmiLast (h : s.nmiLast = nmiTrigField d) : body (.wrCpuCtrl m ib d) s = .next { s with
    haltDma := dmaHaltField d
    haltMain := mainHaltField d
    nmiCtl := nmiTrigField d
    yieldTo := s.yieldAfterHalts (dmaHaltField d) (mainHaltField d) m
    history := s.history ++
      (changeEvent .haltDma s.haltDma (dmaHaltField d) ++ changeEvent .haltMain s.haltMain (mainHaltField d)) } := by
  rw [body_wrCpuCtrl, ← h]
  simp [State.nmiPulses]

/-- A change of level is no NMI pulse. -/
theorem nmiPulse_not_mem_changeEvent (l : Line) (old new : Bool) : Event.nmiPulse ∉ changeEvent l old new := by
  unfold changeEvent
  split <;> simp

/-- Settles O51: each of the two leaves the level it presents in `nmi_last`, where the other finds no edge. -/
theorem nmiInputsShareOneEdge : Obligations.NmiInputsShareOneEdge := by
  unfold Obligations.NmiInputsShareOneEdge
  intro s m d
  have hwrite : ∀ u : State, exec (.wrCpuCtrl m false d) u = body (.wrCpuCtrl m false d) (u.begun m false) :=
    fun _ => exec_of_admits rfl (State.admits_of_not_boundary m)
  refine ⟨⟨_, (hwrite s).trans (body_wrCpuCtrl d), exec_nmiIn_of_held rfl⟩, ?nmiInFirst⟩
  case nmiInFirst =>
    have hlast : ((s.accepted.recalcNmi (nmiTrigField d)).begun m false).nmiLast = nmiTrigField d :=
      State.recalcNmi_nmiLast _ _
    refine ⟨_, _, exec_nmiIn _ s, (hwrite _).trans (body_wrCpuCtrl_of_nmiLast hlast), rfl, fun es hes => ?_⟩
    rw [← List.append_cancel_left hes, List.mem_append, not_or]
    exact ⟨nmiPulse_not_mem_changeEvent _ _ _, nmiPulse_not_mem_changeEvent _ _ _⟩

/-! ### RESET (R186, R187, R242) -/

/-- RESET makes every programmable row the default one. -/
theorem State.resetBlock_pt_get (k b : Nib) : (s.resetBlock.pt.get k).get b = defaultRow s.cfg b := by
  simp [State.resetBlock]

/-- RESET disables paging, so the default task is live. -/
theorem State.resetBlock_live : s.resetBlock.live = s.cfg.defaultTask := rfl

/-- RESET routes each block as its entry of the default row decodes: the routing table is coherent, with paging and the
overlay disabled. -/
theorem State.resetBlock_route_get (b : Nib) : s.resetBlock.route.get b = decodePte s.cfg (defaultRow s.cfg b) := by
  rw [State.resetBlock_coherent b, State.resolve, State.ptAt_live_unpaged rfl]
  rfl

/-- The explicit ROM range is not empty (R8). -/
theorem romFirst_lt {c : Config} (hc : c.Wf) : c.romFirst < 256 := by
  have hpos : c.romBlocks ≠ 0 := fun h => absurd hc.2.2.1 (by rw [h]; decide)
  rw [romFirst_eq hc.1]
  omega

/-- The first value of the explicit ROM range names ROM block 0 (R57). -/
theorem decodePte_romFirst {c : Config} (hc : c.Wf) : decodePte c (BitVec.ofNat 8 c.romFirst) = ⟨.rom, 0, false⟩ := by
  have hlt : c.romFirst < 256 := romFirst_lt hc
  have hval : (BitVec.ofNat 8 c.romFirst).toNat = c.romFirst := Nat.mod_eq_of_lt hlt
  have hzero : c.romFirst % c.romBlocks = 0 := by
    rw [mod_romBlocks_of_romFirst_le hc hlt le_rfl, Nat.sub_self]
  rw [decodePte_rom (hval.symm ▸ ramBlocks_le_romFirst hc.2.2), hval, hzero, Nat.zero_mul]

/-- So RESET routes logical block 0 to ROM block 0. -/
theorem State.resetBlock_routeAt_zero (hc : s.cfg.Wf) : s.resetBlock.routeAt 0 = ⟨.rom, 0, false⟩ := by
  obtain ⟨-, -, hblocks, -⟩ := hc.1
  have hpaged : (0 : Fin 17).val < s.resetBlock.cfg.numBlocks := by rw [State.resetBlock_cfg, hblocks]; decide
  rw [State.routeAt, if_pos hpaged, State.resetBlock_route_get, ← decodePte_romFirst hc]
  rfl

/-- Entry 16 of the routing table is always the I/O entry (R31). -/
theorem State.routeAt_sixteen (hc : s.cfg.SizesWf) : s.routeAt 16 = ioEntry := by
  obtain ⟨-, -, hblocks, -⟩ := hc
  exact if_neg (by rw [hblocks]; decide)

/-- Settles O37: the assignments of RESET are `resetBlock`'s own, its routing table the decode of the default row. -/
theorem resetEffect : Obligations.ResetEffect := by
  unfold Obligations.ResetEffect
  refine ⟨fun c => decode_encodeReset, fun s => ⟨_, exec_of_environment rfl s, fun k b => ?rows, fun b => ?routing,
    State.resetBlock_live, fun hc => ?legal, fun _ => rfl, fun _ => rfl, rfl⟩⟩
  case rows => exact (State.resetBlock_pt_get k b).trans (defaultRow_eq s.cfg b)
  case routing => rw [State.resetBlock_route_get, defaultRow_eq]; rfl
  case legal =>
    obtain ⟨-, -, -, -, -, hdefault, -⟩ := hc.1
    exact ⟨hdefault, State.resetBlock_routeAt_zero hc, State.routeAt_sixteen hc.1⟩

end Sys2Proof.Machine
end

section
/-! The history under every step (R45, R207). Each shared operation that drives an output level records the change it makes,
and every other event leaves the levels alone, so each keeps the history exact; the rules are made of these operations. -/

namespace Sys2Proof.Machine

variable {i : Instr} {s t : State}

/-! ### The operations -/

/-- An event that leaves the levels alone keeps the history exact. -/
theorem State.HistoryExact.emit (h : s.HistoryExact) {e : Event} (he : ∀ v : Levels, v.after e = some v) :
    (s.emit e).HistoryExact :=
  h.append [e] rfl (by simp only [Levels.replay, he]; rfl)

theorem State.HistoryExact.reply (h : s.HistoryExact) (m : Master) (v : Byte) : (s.reply m v).HistoryExact :=
  h.emit fun _ => rfl

/-- An operation that sets one level and records its change keeps the history exact. -/
theorem State.HistoryExact.change (h : s.HistoryExact) {l : Line} {b : Bool}
    (hh : t.history = s.history ++ changeEvent l (s.levels.get l) b) (hl : t.levels = s.levels.set l b) :
    t.HistoryExact :=
  h.append _ hh (by rw [Levels.replay_changeEvent, hl])

/-- `recalc()` records the change of each of the two lines. -/
theorem State.HistoryExact.recalc (h : s.HistoryExact) : s.recalc.HistoryExact := by
  have hirq : s.recalcIrq.HistoryExact := by
    rw [State.recalcIrq_eq]
    exact h.change (l := .irq) rfl rfl
  rw [State.recalc, State.recalcFirq_eq]
  exact hirq.change (l := .firq) rfl rfl

/-- `set_halt` records the change of the CPU's HALT line. -/
theorem State.HistoryExact.setHalt (h : s.HistoryExact) (c : Master) (v : Bool) (w : Master) :
    (s.setHalt c v w).HistoryExact := by
  rw [State.setHalt_eq]
  cases c with
  | main => exact h.change (l := .haltMain) rfl rfl
  | dma => exact h.change (l := .haltDma) rfl rfl

/-- NMI is a pulse and has no level (R37). -/
theorem State.HistoryExact.recalcNmi (h : s.HistoryExact) (v : Bool) : (s.recalcNmi v).HistoryExact := by
  rw [State.recalcNmi_eq]
  refine h.append _ rfl ?_
  split <;> rfl

/-- RESET ends at the reset levels, as its mark says, whatever the levels were before. -/
theorem State.HistoryExact.resetBlock (h : s.HistoryExact) : s.resetBlock.HistoryExact :=
  h.append [.resetMark] rfl rfl

/-! ### The transactions -/

/-- Every transaction's rule keeps the history exact: it replies, records an external access, or runs the operations above. -/
theorem State.HistoryExact.body (h : s.HistoryExact) (hb : body i s = .next t) : t.HistoryExact := by
  cases i with
  | rdMem m ib a =>
    simp only [Machine.body] at hb
    split at hb
    · cases hb; exact h.reply _ _
    · cases hb
  | wrMem m ib a d =>
    simp only [Machine.body] at hb
    split at hb
    · rename_i hw
      cases hb
      rcases State.writeRoute_cases hw with rfl | ⟨-, -, -, rfl⟩ <;> exact h
    · cases hb
  | rdExtio m ib a =>
    cases hb
    have hread : (s.drawn.emit (.extRd a s.nextDraw)).HistoryExact := State.HistoryExact.emit h fun _ => rfl
    exact hread.reply _ _
  | wrExtio m ib a d => cases hb; exact h.emit fun _ => rfl
  | wrPage m ib n d => cases hb; split <;> exact h
  | wrTaskSel | wrEditTask | wrMmuCtrl | wrUnimpl | wrIntStatus | wrIntLines => cases hb; exact h
  | wrCpuCtrl m ib d =>
    cases hb
    refine State.HistoryExact.recalcNmi ?_ _
    exact (h.setHalt .dma (dmaHaltField d) m).setHalt .main (mainHaltField d) m
  | wrIrqEn | wrFirqEn | wrIntSwi | srcUpdate => cases hb; exact State.HistoryExact.recalc h
  | rdIntStatus m ib => cases hb; exact State.HistoryExact.recalc (h.reply m s.src)
  | nmiIn v => cases hb; exact h.recalcNmi v
  | reset => cases hb; exact h.resetBlock
  | rdTaskSel | rdEditTask | rdMmuCtrl | rdPage | rdUnimpl | rdCpuCtrl | rdIrqEn | rdFirqEn | rdIntSwi | rdIntLines | iack =>
    cases hb; exact h.reply _ _

/-- Every transaction keeps the history exact: admission records nothing and drives no level. -/
theorem State.HistoryExact.exec (h : s.HistoryExact) (hx : exec i s = .next t) : t.HistoryExact := by
  rcases exec_cases hx with rfl | ⟨y, hb, -⟩
  · exact h
  · exact State.HistoryExact.body (s := { s with yieldTo := y, outcome := .done }) h hb

/-- Every transaction leaves the lines at their levels. -/
theorem State.LineLaw.exec (h : s.LineLaw) (hx : exec i s = .next t) : t.LineLaw := by
  rcases exec_effect hx with rfl | ⟨y, he, -⟩
  · exact h
  · exact he.lineLaw h

/-- Settles O47: neither law looks at the words waiting, and every transaction keeps both. -/
theorem stepKeepsLinesAndHistoryExact : Obligations.StepKeepsLinesAndHistoryExact := by
  unfold Obligations.StepKeepsLinesAndHistoryExact
  intro s t hlines hhistory h
  exact step_keeps (P := fun u => u.LineLaw ∧ u.HistoryExact) (fun _ _ hu => hu)
    (fun _ _ _ hu hx => ⟨hu.1.exec hx, hu.2.exec hx⟩) ⟨hlines, hhistory⟩ h

end Sys2Proof.Machine
end

section
/-! Completion (R64, R200, R201): on a coherent routing table every well-formed transaction has a next state, and so has the
environment's on any. -/

namespace Sys2Proof.Machine

variable {i : Instr} {s : State}

/-- The environment's transactions are SRC_UPDATE, NMI_IN and RESET (R180). -/
theorem environment_cases (h : i.presenter = none) :
    (∃ mask val, i = .srcUpdate mask val) ∨ (∃ v, i = .nmiIn v) ∨ i = .reset := by
  cases i with
  | srcUpdate mask val => exact .inl ⟨mask, val, rfl⟩
  | nmiIn v => exact .inr (.inl ⟨v, rfl⟩)
  | reset => exact .inr (.inr rfl)
  | _ => cases h

/-- They complete from every state. -/
theorem exec_environment_completes (h : i.presenter = none) (s : State) : ∃ t, exec i s = .next t ∧ t.outcome = .done := by
  have hnext : ∃ t, exec i s = .next t := by
    rw [exec_of_environment h]
    rcases environment_cases h with ⟨mask, val, rfl⟩ | ⟨v, rfl⟩ | rfl <;> exact ⟨_, rfl⟩
  obtain ⟨t, ht⟩ := hnext
  exact ⟨t, ht, exec_outcome_of_admitsInstr (State.admitsInstr_of_environment h) ht⟩

/-- Only the rules of RD_MEM and WR_MEM can fault, and on a coherent table their routes stay inside the arrays. -/
theorem body_completes (hc : s.cfg.BlocksWf) (h : s.Coherent) (hi : i.wellFormed s.cfg = true) :
    ∃ t, body i s = .next t := by
  cases i with
  | rdMem m ib a =>
    have ha : inIoWindow s.cfg a = false := by simpa [Instr.wellFormed] using hi
    exact ⟨_, by simp only [body, State.readRoute_routeOf hc h ha]; rfl⟩
  | wrMem m ib a d =>
    have ha : inIoWindow s.cfg a = false := by simpa [Instr.wellFormed] using hi
    rcases State.routeOf_bounds hc h ha with ⟨hr, hw, hlt⟩ | ⟨hr, -, -⟩
    · exact ⟨_, by simp only [body, State.writeRoute_ram d hr hw hlt]; rfl⟩
    · exact ⟨_, by simp only [body, State.writeRoute_rom d hr]; rfl⟩
  | _ => exact ⟨_, rfl⟩

/-- Every well-formed transaction completes, stuck or done. -/
theorem exec_completes (hc : s.cfg.BlocksWf) (h : s.Coherent) (hi : i.wellFormed s.cfg = true) :
    ∃ t, exec i s = .next t := by
  cases hp : i.presenter with
  | none =>
    obtain ⟨t, ht, -⟩ := exec_environment_completes hp s
    exact ⟨t, ht⟩
  | some p =>
    obtain ⟨m, ib⟩ := p
    by_cases ha : s.Admits m ib
    · rw [exec_of_admits hp ha]
      exact body_completes (s := s.begun m ib) hc (h.begun m ib) hi
    · exact ⟨_, exec_of_not_admits hp ha⟩

/-- With no word presented a step changes nothing. -/
theorem step_of_no_word (hp : s.pending = []) : step s = .next s := stepRunsPresentedTransaction.2 s hp

/-- Settles O8: a word that decodes is the encoding of a well-formed transaction, which completes. -/
theorem everyTransactionCompletes : Obligations.EveryTransactionCompletes := by
  unfold Obligations.EveryTransactionCompletes
  refine ⟨fun i s h hi => exec_completes h.cfgWf.2.2 h.coherent hi, fun s h => ?step⟩
  cases hp : s.pending with
  | nil => exact .inl ⟨s, step_of_no_word hp⟩
  | cons w rest =>
    cases hd : decode s.cfg w with
    | error e => exact .inr ⟨w, rest, e, rfl, hd⟩
    | ok i =>
      obtain ⟨hi, -⟩ := encodeInvertsDecode s.cfg w i h.cfgWf hd
      rw [step_of_decode hp hd]
      exact .inl (exec_completes (s := { s with pending := rest }) h.cfgWf.2.2 h.coherent hi)

end Sys2Proof.Machine
end

section
/-! Both CPUs halted (R222): neither begins an instruction, and the environment's transactions, RESET apart, write nothing a
master could. -/

namespace Sys2Proof.Machine

variable {i : Instr} {s : State}

/-- What stands still while both CPUs are halted: everything but the sources 0 to 6, the lines, the NMI edge, the history and
the model's own fields. -/
structure Held where
  cfg : Config
  haltMain : Bool
  haltDma : Bool
  ram : List Host.Cell
  pt : PageTable
  route : Vec16 RouteEntry
  taskReq : Nib
  editTask : Nib
  pgEn : Bool
  romOvl : Bool
  irqEn : Byte
  firqEn : Byte
  nmiCtl : Bool
  swi : Bool

/-- What of a state stands still. -/
def State.held (s : State) : Held where
  cfg := s.cfg
  haltMain := s.haltMain
  haltDma := s.haltDma
  ram := s.ram
  pt := s.pt
  route := s.route
  taskReq := s.taskReq
  editTask := s.editTask
  pgEn := s.pgEn
  romOvl := s.romOvl
  irqEn := s.irqEn
  firqEn := s.firqEn
  nmiCtl := s.nmiCtl
  swi := s.src.getLsbD 7

/-- The word spells a transaction of the environment other than RESET, or the first of a master's instruction. -/
def BeginsOrEnvironment (c : Config) (w : Word) : Prop :=
  ∃ i, decode c w = .ok i ∧ i ≠ .reset ∧ ∀ m ib, i.presenter = some (m, ib) → ib = true

/-- Both CPUs are halted, and only words that begin an instruction or are the environment's are presented. -/
structure State.BothHalted (s : State) : Prop where
  main : s.haltMain = true
  dma : s.haltDma = true
  words : ∀ w ∈ s.pending, BeginsOrEnvironment s.cfg w

/-- A halted CPU does not begin an instruction (R211). -/
theorem State.not_admits_of_halt {m : Master} (h : s.halt m = true) : ¬ s.Admits m true := fun ha =>
  Bool.false_ne_true ((ha rfl).1.symm.trans h)

/-- SRC_UPDATE leaves source 7 alone, and writes nothing else held. -/
theorem State.held_srcUpdate (mask val : Byte) :
    ({ s with src := srcAfterUpdate s.cfg.latchedMask s.src mask val } : State).recalc.held = s.held := by
  have hswi : (srcAfterUpdate s.cfg.latchedMask s.src mask val).getLsbD 7 = s.src.getLsbD 7 :=
    (srcAfterUpdate_kept _ _ mask val 7).resolve_right (by decide)
  simpa [State.held] using hswi

theorem State.held_recalcNmi (v : Bool) : (s.recalcNmi v).held = s.held := by simp [State.held]

/-- No operation takes a word: the step has. -/
theorem Effect.pending {t : State} (h : Effect s i t) : t.pending = s.pending := by
  cases h <;> simp

theorem exec_pending {t : State} (h : exec i s = .next t) : t.pending = s.pending := by
  rcases exec_effect h with rfl | ⟨y, he, -⟩
  · rfl
  · exact he.pending

/-- With both CPUs halted, a master's transaction that begins an instruction is stuck, and SRC_UPDATE and NMI_IN write
nothing held. -/
theorem exec_of_halted (hm : s.haltMain = true) (hd : s.haltDma = true) (hi : i ≠ .reset)
    (hib : ∀ m ib, i.presenter = some (m, ib) → ib = true) : ∃ t, exec i s = .next t ∧ t.held = s.held := by
  cases hp : i.presenter with
  | some p =>
    obtain ⟨m, ib⟩ := p
    obtain rfl : ib = true := hib m ib hp
    have hhalt : s.halt m = true := by cases m <;> assumption
    exact ⟨_, exec_of_not_admits hp (State.not_admits_of_halt hhalt), rfl⟩
  | none =>
    rw [exec_of_environment hp]
    rcases environment_cases hp with ⟨mask, val, rfl⟩ | ⟨v, rfl⟩ | rfl
    · exact ⟨_, rfl, State.held_srcUpdate (s := s.accepted) mask val⟩
    · exact ⟨_, rfl, State.held_recalcNmi (s := s.accepted) v⟩
    · exact absurd rfl hi

/-- A step keeps both halted, and what is held. -/
theorem State.BothHalted.step (h : s.BothHalted) : ∃ t, step s = .next t ∧ t.BothHalted ∧ t.held = s.held := by
  cases hp : s.pending with
  | nil => exact ⟨s, step_of_no_word hp, h, rfl⟩
  | cons w rest =>
    obtain ⟨hw, hrest⟩ := List.forall_mem_cons.mp (hp ▸ h.words)
    obtain ⟨i, hd, hi, hib⟩ := hw
    obtain ⟨t, hx, hheld⟩ := exec_of_halted (s := { s with pending := rest }) h.main h.dma hi hib
    have hcfg : t.cfg = s.cfg := congrArg Held.cfg hheld
    have hpending : t.pending = rest := exec_pending hx
    refine ⟨t, (step_of_decode hp hd).trans hx, ⟨?_, ?_, ?_⟩, hheld⟩
    · exact (congrArg Held.haltMain hheld).trans h.main
    · exact (congrArg Held.haltDma hheld).trans h.dma
    · rwa [hcfg, hpending]

/-- A run of the machine, step by step. -/
theorem core_run_succ {u : State} (h : step s = .next u) (n : Nat) : core.run (n + 1) s = core.run n u := by
  have hcore : core.step s = .next u := h
  simp only [Host.Core.run, hcore]

/-- So do any number of steps. -/
theorem State.BothHalted.run (h : s.BothHalted) (n : Nat) :
    ∃ t, core.run n s = .next t ∧ t.BothHalted ∧ t.held = s.held := by
  induction n generalizing s with
  | zero => exact ⟨s, rfl, h, rfl⟩
  | succ n ih =>
    obtain ⟨u, hstep, hu, hheld⟩ := h.step
    obtain ⟨t, hrun, ht, hheld'⟩ := ih hu
    exact ⟨t, (core_run_succ hstep n).trans hrun, ht, hheld'.trans hheld⟩

/-- Settles O52: by induction on the steps both CPUs stay halted and what is held stays, while the environment's transactions
complete from any state. -/
theorem bothHaltedUntilReset : Obligations.BothHaltedUntilReset := by
  unfold Obligations.BothHaltedUntilReset
  refine ⟨fun n s hm hd hwords => ?halted, fun i s hp => exec_environment_completes hp s,
    fun s => ⟨_, exec_of_environment rfl s, rfl⟩⟩
  obtain ⟨t, hrun, ht, hheld⟩ := State.BothHalted.run ⟨hm, hd, hwords⟩ n
  simp only [State.held, Held.mk.injEq] at hheld
  obtain ⟨-, -, -, hkept⟩ := hheld
  exact ⟨t, hrun, ht.main, ht.dma, hkept⟩

end Sys2Proof.Machine
end

section
/-! The CPU waited for (R211, R212), the first NMI edge after RESET (R209, R252), and what the saved state determines (R46,
R228). -/

namespace Sys2Proof.Machine

variable {s t : State}

/-! ### `yield_to` -/

/-- While a CPU is waited for, no other master begins an instruction. -/
theorem State.not_admits_of_yieldTo {c m : Master} (hy : s.yieldTo = some c) (hne : m ≠ c) : ¬ s.Admits m true :=
  fun ha => hne ((ha rfl).2 c hy).symm

/-- The CPU waited for does, unless it is halted. -/
theorem State.admits_of_yieldTo {c : Master} (hy : s.yieldTo = some c) (hh : s.halt c = false) : s.Admits c true :=
  fun _ => ⟨hh, fun _ hx => Option.some.inj (hx.symm.trans hy)⟩

/-- Settles O53: admission, and the writers of `yield_to`. -/
theorem yieldUntilReleasedCpuBegins : Obligations.YieldUntilReleasedCpuBegins := by
  unfold Obligations.YieldUntilReleasedCpuBegins
  refine fun s c hy => ⟨fun i m hp hne => exec_of_not_admits hp (State.not_admits_of_yieldTo hy hne),
    State.admits_of_yieldTo hy, fun i t hx hend => ?writers⟩
  rcases exec_yieldTo hx with hkept | ⟨m, hm, -, hp⟩ | hwriter
  · exact absurd (hkept.trans hy) hend
  · obtain rfl : m = c := Option.some.inj (hm.symm.trans hy)
    exact .inl hp
  · exact .inr hwriter

/-! ### The first NMI edge -/

/-- A rise of the NMI input disarms the guard, and pulses where it was not armed. -/
theorem exec_nmiIn_rise (he : s.cfg.nmiEdge = .rising) (hl : s.nmiLast = false) : exec (.nmiIn true) s = .next { s with
    nmiLast := true
    firstNmiArmed := false
    history := s.history ++ if s.firstNmiArmed = true then [] else [.nmiPulse]
    outcome := .done } := by
  have hedge : NmiOccurs s.cfg.nmiEdge s.nmiLast true := by rw [he]; exact ⟨hl, rfl⟩
  rw [exec_nmiIn]
  cases ha : s.firstNmiArmed with
  | true => rw [State.recalcNmi_of_armed (s := s.accepted) hedge ha]; simp [State.accepted, State.withOutcome]
  | false => rw [State.recalcNmi_of_not_armed (s := s.accepted) hedge ha]; simp [State.accepted, State.withOutcome, ha]

/-- A fall is no rising edge. -/
theorem exec_nmiIn_fall (he : s.cfg.nmiEdge = .rising) :
    exec (.nmiIn false) s = .next { s with nmiLast := false, outcome := .done } := by
  have hno : ¬ NmiOccurs s.cfg.nmiEdge s.nmiLast false := by rw [he]; exact fun h => Bool.false_ne_true h.2
  rw [exec_nmiIn, State.recalcNmi_of_no_edge (s := s.accepted) hno]
  rfl

/-- Settles O50: RESET arms the guard as `IGNORE_FIRST_NMI` says and clears `nmi_last`; the first rise disarms the guard, and
after the fall the next rise is an edge again. -/
theorem firstNmiAfterReset : Obligations.FirstNmiAfterReset := by
  unfold Obligations.FirstNmiAfterReset
  intro s he
  exact ⟨_, _, _, _, exec_of_environment rfl s, exec_nmiIn_rise he rfl, exec_nmiIn_fall he, exec_nmiIn_rise he rfl,
    rfl, rfl, rfl⟩

/-! ### The saved state -/

/-- Settles O54: `resolve` reads saved state only, the routing table is its coherent table, and the lines are at their
levels. -/
theorem savedStateDeterminesRoutingAndLines : Obligations.SavedStateDeterminesRoutingAndLines := by
  unfold Obligations.SavedStateDeterminesRoutingAndLines
  intro s t hs ht hsaved
  obtain ⟨hcfg, hpt, htask, hpg, hovl, hsrc, hirq, hfirq⟩ := hsaved
  obtain ⟨hsIrq, hsFirq⟩ := hs.lines
  obtain ⟨htIrq, htFirq⟩ := ht.lines
  refine ⟨fun k b => ?resolve, Vec16.ext fun b => ?route, ?irq, ?firq⟩
  case resolve => simp only [State.resolve, State.ptAt, hcfg, hpt, hovl]
  case route => rw [ht.coherent, hs.coherent, State.resolve_live_congr hcfg hpt htask hpg hovl]
  case irq => rw [htIrq, hsIrq, hsrc, hirq, hcfg]
  case firq => rw [htFirq, hsFirq, hsrc, hfirq, hcfg]

end Sys2Proof.Machine
end

section
/-! RESET and power-on (70_reset_and_hazards.md R240, R241, R243): power-on is a RESET, so it has the routing table of one
and meets the invariant; what the CPUs fetch there, and what every register reads as after a RESET. -/

namespace Sys2Proof.Machine

variable {c : Config} {s : State}

/-! ### Power-on is a RESET (R241) -/

/-- The routing table of power-on is the one RESET syncs: both decode the default row. -/
theorem State.powerOn_eq_resetBlock (c : Config) :
    State.powerOn c = ({ State.powerOn c with history := [] } : State).resetBlock := by
  have hroute : (State.powerOn c).route = ({ State.powerOn c with history := [] } : State).resetBlock.route :=
    Vec16.ext fun b => by
      rw [State.resetBlock_route_get]
      exact Vec16.get_tab _ b
  calc State.powerOn c
    _ = { State.powerOn c with route := (State.powerOn c).route } := rfl
    _ = { State.powerOn c with route := ({ State.powerOn c with history := [] } : State).resetBlock.route } := by rw [hroute]
    _ = ({ State.powerOn c with history := [] } : State).resetBlock := rfl

theorem State.powerOn_coherent (c : Config) : (State.powerOn c).Coherent := by
  rw [State.powerOn_eq_resetBlock]
  exact State.resetBlock_coherent

theorem State.powerOn_route_get (c : Config) (b : Nib) :
    (State.powerOn c).route.get b = decodePte c (defaultRow c b) := Vec16.get_tab _ b

/-- Power-on meets the invariant under every legal configuration. -/
theorem State.powerOn_inv (hc : c.Wf) : (State.powerOn c).Inv where
  cfgWf := hc
  ramWf := rfl
  ramBounded := fun _ h => nomatch h
  coherent := State.powerOn_coherent c
  lines := by simp [State.LineLaw, State.powerOn, lineLevel]
  yieldReleased := fun _ h => nomatch h
  armedOnlyIfIgnoring := id

/-- Settles O45: `State.reset` is power-on under R7's values, and its one event leaves the levels of a RESET. -/
theorem resetMeetsInvariant : Obligations.ResetMeetsInvariant := by
  unfold Obligations.ResetMeetsInvariant
  exact ⟨State.powerOn_inv (Config.standard_wf _ _ _), rfl⟩

/-! ### The map at power-on (R243) -/

/-- Logical block 0 is ROM block 0. -/
theorem State.powerOn_route_zero (hc : c.Wf) : (State.powerOn c).route.get 0 = ⟨.rom, 0, false⟩ := by
  rw [State.powerOn_route_get, ← decodePte_romFirst hc]
  rfl

/-- Every other installed block is the RAM block of its number. -/
theorem State.powerOn_route_ram (hc : c.Wf) {b : Nib} (hb : b ≠ 0#4) (hram : b.toNat < c.ramBlocks) :
    (State.powerOn c).route.get b = ⟨.ram, b.toNat * 4096, true⟩ := by
  have hentry : (defaultRow c b).toNat = b.toNat := by
    have := b.isLt
    rw [defaultRow_eq, if_neg hb, BitVec.toNat_ofNat, Nat.mod_eq_of_lt (by omega)]
  rw [State.powerOn_route_get, decodePte, if_pos (hentry.symm ▸ hram), hentry, blockSize_eq hc.1]

/-- An address of logical block 0 outside the I/O window names the byte of ROM at that address. -/
theorem State.powerOn_routedByte_of_lt (hc : c.Wf) {a : Addr} (ha : a < 0x1000#16) (hio : inIoWindow c a = false) :
    (State.powerOn c).routedByte ((State.powerOn c).routeOf a) = c.romImage.byte a.toNat := by
  have hlt : a.toNat < 4096 := ha
  have hblock : a.extractLsb' 12 4 = 0 := by
    apply BitVec.eq_of_toNat_eq
    rw [BitVec.extractLsb'_toNat, Nat.shiftRight_eq_div_pow, Nat.div_eq_of_lt hlt]
    rfl
  have hroute : (State.powerOn c).routeOf a = ⟨.rom, a.toNat, false⟩ := by
    rw [State.routeOf_block (s := State.powerOn c) hc.1 hio, hblock, State.powerOn_route_zero hc, Nat.zero_add,
      Nat.mod_eq_of_lt hlt]
  rw [hroute]
  rfl

/-! ### Admission where no CPU is waited for (R211) -/

/-- Where no CPU is waited for, a CPU that is not halted begins an instruction. -/
theorem State.admits_of_yieldTo_none {m : Master} (hy : s.yieldTo = none) (hh : s.halt m = false) : s.Admits m true :=
  fun _ => ⟨hh, fun _ hx => nomatch hy.symm.trans hx⟩

/-- Where no CPU is waited for, a transaction proceeds from the state itself, but for the outcome. -/
theorem State.begun_of_yieldTo_none (hy : s.yieldTo = none) (m : Master) (ib : Bool) :
    s.begun m ib = s.withOutcome .done := by
  rw [State.begun, State.withOutcome, hy]
  split <;> rfl

/-- Settles O48: power-on is `State.powerOn_eq_resetBlock`; its map, the main CPU's fetches and the DMA CPU's hold are those
of the lemmas above. -/
theorem powerOnState : Obligations.PowerOnState := by
  unfold Obligations.PowerOnState
  intro c hc
  obtain ⟨-, -, -, -, -, hdefault, -⟩ := hc.1
  refine ⟨?isReset, rfl, fun _ => rfl, rfl, rfl, hdefault, rfl, rfl, State.powerOn_route_zero hc,
    fun b hb hram => State.powerOn_route_ram hc hb hram, fun a ha hio => ?mainFetches,
    fun a => exec_of_not_admits rfl (State.not_admits_of_halt rfl)⟩
  case isReset => exact (exec_of_environment rfl _).trans (congrArg _ (State.powerOn_eq_resetBlock c).symm)
  case mainFetches =>
    have hio' : inIoWindow c a = false := (inIoWindow_eq_false_iff c a).mpr hio
    rw [exec_rdMem_of_admits hc.2.2 (State.powerOn_coherent c) (State.admits_of_yieldTo_none rfl rfl) hio',
      State.powerOn_routedByte_of_lt hc ha hio', State.begun_of_yieldTo_none rfl]
    rfl

/-! ### The registers after a RESET (R240) -/

/-- After a RESET the main CPU's transactions are admitted, so a READ whose rule there only replies does just that. -/
theorem exec_read_of_reset {i : Instr} {u v : Byte} (hp : i.presenter = some (.main, true))
    (hb : body i s.accepted.resetBlock = .next (s.accepted.resetBlock.reply .main u)) (hv : u = v) :
    exec i s.accepted.resetBlock = .next { s.accepted.resetBlock with
      history := s.accepted.resetBlock.history ++ [.reply .main v] } := by
  rw [exec_of_admits hp (State.admits_of_yieldTo_none rfl rfl), State.begun_of_yieldTo_none rfl, ← hv]
  exact hb

/-- On lines already at their levels the recalculator changes nothing. -/
theorem State.LineLaw.recalc_self (h : s.LineLaw) : s.recalc = s := by
  obtain ⟨hirq, hfirq⟩ := h
  rw [State.recalc_eq, ← hirq, ← hfirq]
  simp [State.recalcEvents, changeEvent]

/-- With no source pending and the lines at their levels, a status read clears nothing: it only replies. -/
theorem body_rdIntStatus_of_no_source (hs : s.src = 0#8) (h : s.LineLaw) (m : Master) (ib : Bool) :
    body (.rdIntStatus m ib) s = .next (s.reply m 0#8) := by
  have hlines : (s.reply m s.src).LineLaw := h
  have hkept : srcAfterStatusRead s.cfg.latchedMask s.src = s.src := by
    rw [srcAfterStatusRead, hs, BitVec.zero_and]
  calc body (.rdIntStatus m ib) s
    _ = .next ({ s.reply m s.src with src := srcAfterStatusRead s.cfg.latchedMask s.src } : State).recalc := rfl
    _ = .next (s.reply m s.src).recalc := by rw [hkept]; rfl
    _ = .next (s.reply m s.src) := by rw [hlines.recalc_self]
    _ = .next (s.reply m 0#8) := by rw [hs]

theorem State.resetBlock_lineLaw : s.resetBlock.LineLaw := by simp [State.LineLaw, State.resetBlock, lineLevel]

/-- The bytes made of several state variables: of the bits they show, only `halt_dma` is set. -/
theorem State.resetBlock_bytes (s : State) : s.resetBlock.taskSelByte = 0#8 ∧ s.resetBlock.editTaskByte = 0#8 ∧
    s.resetBlock.mmuCtrlByte = 0#8 ∧ s.resetBlock.cpuCtrlByte = 0x80#8 ∧ s.resetBlock.intSwiByte = 0#8 ∧
    s.resetBlock.intLinesByte = 0x08#8 := by
  simp [State.resetBlock, State.taskSelByte, State.editTaskByte, State.mmuCtrlByte, State.cpuCtrlByte, State.intSwiByte,
    State.intLinesByte]

/-- A page register reads its entry of the default row. -/
theorem State.resetBlock_pageByte (n : Nib) : s.resetBlock.pageByte n =
    if n = 0#4 then BitVec.ofNat 8 s.cfg.romFirst else BitVec.ofNat 8 n.toNat :=
  (State.resetBlock_pt_get _ n).trans (defaultRow_eq s.cfg n)

/-- Settles O49: each READ's rule replies its register's byte of the reset state, and the status read finds no source to
clear. -/
theorem resetReadbacks : Obligations.ResetReadbacks := by
  unfold Obligations.ResetReadbacks
  intro s
  obtain ⟨htaskSel, heditTask, hmmuCtrl, hcpuCtrl, hintSwi, hintLines⟩ := s.accepted.resetBlock_bytes
  have hstatus : body (.rdIntStatus .main true) s.accepted.resetBlock = .next (s.accepted.resetBlock.reply .main 0#8) :=
    body_rdIntStatus_of_no_source rfl State.resetBlock_lineLaw .main true
  refine ⟨_, exec_of_environment rfl s, ?registers, fun n => exec_read_of_reset rfl rfl (State.resetBlock_pageByte n)⟩
  case registers =>
    simp only [List.forall_mem_cons, List.not_mem_nil, false_imp_iff, implies_true, and_true]
    exact ⟨exec_read_of_reset rfl rfl htaskSel, exec_read_of_reset rfl rfl heditTask,
      exec_read_of_reset rfl rfl hmmuCtrl, exec_read_of_reset rfl rfl hcpuCtrl, exec_read_of_reset rfl rfl rfl,
      exec_read_of_reset rfl rfl rfl, exec_read_of_reset rfl hstatus rfl, exec_read_of_reset rfl rfl hintSwi,
      exec_read_of_reset rfl rfl hintLines⟩

end Sys2Proof.Machine
end

section
/-! External I/O (40_memory_transactions.md R114 to R116): the READs and WRITEs of the I/O window outside the register
window. -/

namespace Sys2Proof.Machine

variable {s : State} {m : Master} {ib : Bool}

theorem inRegWindow_eq_false_iff (c : Config) (a : Addr) :
    inRegWindow c a = false ↔ a < c.regBase ∨ c.regLimit < a := by
  rw [← Bool.not_eq_true, inRegWindow_iff]
  simp only [BitVec.le_def, BitVec.lt_def]
  omega

/-- An admitted external READ consumes one draw, records it once and replies it (R114, log entry 10). -/
theorem exec_rdExtio_of_admits (hm : s.Admits m ib) (a : Addr) :
    exec (.rdExtio m ib a) s = .next { s.begun m ib with
      history := s.history ++ [.extRd a s.nextDraw, .reply m s.nextDraw], drawIndex := s.drawIndex + 1 } := by
  rw [exec_of_admits rfl hm, List.append_cons]
  rfl

/-- Settles O19: the address is external, so its words decode to the external rows; the byte of the READ is the state's next
draw, and the WRITE's rule is one event. -/
theorem externalIoRecorded : Obligations.ExternalIoRecorded := by
  unfold Obligations.ExternalIoRecorded
  intro c m ib a d hlo hhi hreg
  have ha : isExternal c a = true :=
    (isExternal_iff c a).mpr ⟨(inIoWindow_iff c a).mpr ⟨hlo, hhi⟩, (inRegWindow_eq_false_iff c a).mpr hreg⟩
  refine ⟨?decodes, stuckUnlessAdmitted rfl, fun s hm => ⟨s.nextDraw, exec_rdExtio_of_admits hm a⟩, ?write⟩
  case decodes => rw [decode_encodeRead, decodeRead_external m ib ha]
  case write => exact writesRegister rfl (decodeWrite_external m ib d ha) fun s => ⟨_, rfl, rfl⟩

end Sys2Proof.Machine
end
